-- ==== Sys2Proof/Config.lean ====
section
/-! DEFINITION. The fixed parameters of spec/00_scope.md rule R6, as named constants that `State`, the operations and
claims name. All of them are reducible, so a constant and its number are the same to Lean's unifier, and `simp` writes the widths
and counts out as numbers.
The parameters whose value the source does not give, `FONT`, `STRICT_PC` and the zeros after reset, are in
Machine/Params.lean; the numeric error codes are `Fault.code` of Machine/HostEvents.lean. -/

namespace Sys2Proof

/-! ### Registers and the call stack -/

/-- `NREG`: the number of general registers (R6, R21). -/
@[simp] abbrev Config.nreg : Nat := 16

/-- `VLEN`: the width of a general register (R6, R21). -/
@[simp] abbrev Config.vlen : Nat := 8

/-- `ILEN`: the width of `I` (R6, R23). -/
@[simp] abbrev Config.ilen : Nat := 16

/-- The part of `I` that R6 calls valid: its low 12 bits, the width of `NNN` (R6, R24). -/
abbrev Config.ilenValid : Nat := 12

/-- `PCLEN`: the width of `PC` (R6, R25). -/
@[simp] abbrev Config.pclen : Nat := 16

/-- `TLEN`: the width of `DT` and of `ST` (R6, R30). -/
@[simp] abbrev Config.tlen : Nat := 8

/-- `STACK_DEPTH`: the number of call-stack entries (R6, R28). -/
@[simp] abbrev Config.stackDepth : Nat := 16

/-- `SPLEN`: the bits that hold an `SP` of 0 to `STACK_DEPTH` (R6; spec D10, log 14). `State.sp` has no value above
`STACK_DEPTH`; that the 5 bits hold all of them is `Config.stackDepth_lt_two_pow_splen` of Laws/State.lean. -/
@[simp] abbrev Config.splen : Nat := 5

/-- `STACK_ELEN`: the width of a stack entry (R6; spec D10, log 14). -/
@[simp] abbrev Config.stackElen : Nat := 16

/-! ### Memory -/

/-- `MEM_SIZE`: the number of bytes of memory, and so the lowest address that does not exist (R6, R50). -/
@[simp] abbrev Config.memSize : Nat := 0x1000

/-- `ADDR_MAX`: the highest legal address (R6, R50). -/
abbrev Config.addrMax : Nat := 0xFFF

/-- `FONT_BASE`, `FONT_GLYPHS`, `FONT_GLYPH_BYTES`: 16 glyphs of 5 bytes from address 0 (R6, R66). -/
abbrev Config.fontBase : Nat := 0x000
abbrev Config.fontGlyphs : Nat := 16
abbrev Config.fontGlyphBytes : Nat := 5

/-- `RESERVED_END`: the reserved region is `[0x000,0x200)`; `PC` must not lie in it (R6, R26). -/
abbrev Config.reservedEnd : Nat := 0x200

/-- `PROG_BASE`: the load address (R6, R68) and the reset value of `PC` (R6, R211; spec D5, log 4). -/
abbrev Config.progBase : Nat := 0x200

/-- `PROG_MAX_LEN`: the longest program image in bytes (R6, R68, 90_conflicts.md C2; spec D22, log 21). -/
@[simp] abbrev Config.progMaxLen : Nat := 0xE00

/-! ### Display, instructions, time -/

/-- `DISP_W`: the columns of the display (R6, R120). -/
@[simp] abbrev Config.dispW : Nat := 64

/-- `DISP_H`: the rows of the display (R6, R120). -/
@[simp] abbrev Config.dispH : Nat := 32

/-- `ILEN_INSTR`: the width of every instruction in bits (R6, R70). -/
@[simp] abbrev Config.ilenInstr : Nat := 16

/-- The instruction width in bytes, by which `PC` advances (R70, R95). -/
abbrev Config.instrBytes : Nat := 2

/-- `TICK_HZ`: the rate at which a host is meant to tick the timers; a duty of the host that the model never reads
(R6, R196). -/
abbrev Config.tickHz : Nat := 60

end Sys2Proof
end

