-- ==== Sys2Proof/Word.lean ====
section
/-! DEFINITION. The bit vectors of the CHIP-8 core: the widths of spec/00_scope.md rule R6 and nothing else.
Bit 0 is the least significant bit (R8); every value is unsigned (R7). -/

namespace Sys2Proof

/-- A byte of memory, a general register, a timer: 8 bits (R20; `VLEN` and `TLEN` of R6). -/
abbrev Byte := BitVec 8

/-- An instruction word, `I`, `PC` or a call-stack entry: 16 bits (R20, R70). -/
abbrev Word := BitVec 16

/-- The 12-bit absolute address `NNN` that an instruction word carries (R71). -/
abbrev Addr12 := BitVec 12

/-- A nibble of an instruction word used as a small number, the sprite height `N` (R71). -/
abbrev Nibble := BitVec 4

/-- A general register's 4-bit index; all 16 values name a register (R21, R73). -/
abbrev Reg := BitVec 4

end Sys2Proof
end

