-- ==== Sys2Proof/Machine/Params.lean ====
section
/-! DEFINITION. The parameters of spec/00_scope.md rule R6 whose value the source does not give and a decision of
spec/92_eei_decisions.md does: `FONT` (D8), `STRICT_PC` (D3), and the zeros after reset (D4, D6, D7). They stand in a
file of the machine so that a repair can change a value. -/

namespace Sys2Proof

/-- `FONT`: the 80 glyph bytes, the default table of 20_memory.md R67, one line per digit 0 to F, top row first.
PRESUMED (log 1): the source does not give the bytes. A claim that depends on them names `Config.font` as a premise;
no law and no statement of this package unfolds it. -/
def Config.font : List Byte :=
  [ 0xF0, 0x90, 0x90, 0x90, 0xF0 ] ++
  [ 0x20, 0x60, 0x20, 0x20, 0x70 ] ++
  [ 0xF0, 0x10, 0xF0, 0x80, 0xF0 ] ++
  [ 0xF0, 0x10, 0xF0, 0x10, 0xF0 ] ++
  [ 0x90, 0x90, 0xF0, 0x10, 0x10 ] ++
  [ 0xF0, 0x80, 0xF0, 0x10, 0xF0 ] ++
  [ 0xF0, 0x80, 0xF0, 0x90, 0xF0 ] ++
  [ 0xF0, 0x10, 0x20, 0x40, 0x40 ] ++
  [ 0xF0, 0x90, 0xF0, 0x90, 0xF0 ] ++
  [ 0xF0, 0x90, 0xF0, 0x10, 0xF0 ] ++
  [ 0xF0, 0x90, 0xF0, 0x90, 0x90 ] ++
  [ 0xE0, 0x90, 0xE0, 0x90, 0xE0 ] ++
  [ 0xF0, 0x80, 0x80, 0x80, 0xF0 ] ++
  [ 0xE0, 0x90, 0x90, 0x90, 0xE0 ] ++
  [ 0xF0, 0x80, 0xF0, 0x80, 0xF0 ] ++
  [ 0xF0, 0x80, 0xF0, 0x80, 0x80 ]

/-- `STRICT_PC`: whether an odd `PC` or one below `0x200` is refused before the fetch (40_execution_cycle.md R91).
DESIGN CHOICE of the spec, D3 (log 2). -/
def Config.strictPC : Bool := true

/-! ### Reset values: all 0 (R6, R38) -/

/-- Each of `V0` to `VF` after reset. DESIGN CHOICE of the spec, D4 (log 3). -/
abbrev Config.resetV : BitVec Config.vlen := 0

/-- `I` after reset. DESIGN CHOICE of the spec, D4 (log 3). -/
abbrev Config.resetI : BitVec Config.ilen := 0

/-- `DT` after reset. DESIGN CHOICE of the spec, D4 (log 3). -/
abbrev Config.resetDT : BitVec Config.tlen := 0

/-- `ST` after reset. DESIGN CHOICE of the spec, D4 (log 3). -/
abbrev Config.resetST : BitVec Config.tlen := 0

/-- `SP` after reset. DEDUCED by the spec, D6 (log 5). -/
abbrev Config.resetSP : Fin (Config.stackDepth + 1) := 0

/-- Each stack entry after reset. DESIGN CHOICE of the spec, D6 (log 5). -/
abbrev Config.resetStack : BitVec Config.stackElen := 0

/-- The memory fill: each byte outside the font after reset. DESIGN CHOICE of the spec, D7 (log 6). -/
abbrev Config.memFill : Byte := 0

end Sys2Proof
end

