-- ==== Sys2Proof/Syntax.lean ====
section
/-! DEFINITION. The instructions: one constructor per row of spec/opcode_table.json, the fallback row included. -/

namespace Sys2Proof

/-- What the decoder answers (30_encoding.md R76): five instructions, and the whole word of anything else. -/
inductive Instr where
  /-- `2NNN`, CALL NNN (43_call.md R142). -/
  | callNnn (nnn : Addr12)
  /-- `6XNN`, LD Vx, NN (41_load_immediate.md R110). -/
  | ldVxNn (x : Reg) (nn : Byte)
  /-- `ANNN`, LD I, NNN (41_load_immediate.md R111). -/
  | ldINnn (nnn : Addr12)
  /-- `DXYN`, DRW Vx, Vy, N (42_draw.md R126). -/
  | drwVxVyN (x y : Reg) (n : Nibble)
  /-- `FX33`, LD B, Vx (44_bcd_store.md R155). -/
  | ldBVx (x : Reg)
  /-- The fallback row: every other word, kept whole as the error's payload (45_unsupported.md R165). -/
  | unsupported (w : Word)
  deriving DecidableEq, Repr

end Sys2Proof
end

