-- ==== Sys2Proof/Machine/State.lean ====
section
/-! DEFINITION. The machine's state (spec/10_state.md R20), its faults (60_exceptions.md R175), its refusals, and the
state after reset (R38, 70_reset_and_hazards.md R210). -/

namespace Sys2Proof.Machine

/-- `MEM` as plain data: the (address, byte) pairs that differ from the reset content, addresses strictly rising.
`Memory.byteAt` reads it, `Memory.store` writes it, `Memory.wf` says the form holds. -/
abbrev Memory := List Host.Cell

/-- `FB`: `DISP_H` rows of `DISP_W` one-bit pixels, `true` = on (R32, 42_draw.md R120). -/
abbrev Frame := Vector (Vector Bool Config.dispW) Config.dispH

/-- The error kinds of R175, each raised before the step has changed anything (R98). A step that ends in one of them is
SAFE where the spec itself names the error; where a decision of the spec added or placed it, the log entry says so. -/
inductive Fault where
  /-- Raised by fetch, `DXYN`, `FX33` and program load when an address exceeds `0xFFF` (R176); `addr` is the lowest
  address above `0xFFF` that the access would touch. Safe (log 9, log 10). -/
  | outOfBounds (addr : Nat)
  /-- Raised by the Register File's `get` and `set` for an index above `0xF`; by no step (R39, R177). Safe (log 9). -/
  | invalidRegister (index : Nat)
  /-- Raised by the execute part of a step on a word of the fallback row (R165, R178). Safe. -/
  | unsupportedOpcode (w : Word)
  /-- Raised by `2NNN` when `SP = 16` (R142, R179). Safe. -/
  | stackOverflow
  /-- Raised by Pop when `SP = 0`; by no step (R141, R180). Safe. -/
  | stackUnderflow
  /-- Raised before the fetch when `PC` is odd or below `0x200`, under `STRICT_PC` (R91, R181). Safe: a lenient machine
  would run on (log 2). -/
  | invalidPC (pc : Word)
  deriving DecidableEq, Repr

/-- Why the model gives no meaning. -/
inductive Refusal where
  /-- Raised only by an arm of `exec` whose instruction has no meaning yet; no arm does so. Safe. -/
  | notModelled (mnemonic : String)
  deriving DecidableEq, Repr

/-- The complete state of R20 with the two host-driven inputs `KEYS` and `HALT`. -/
structure State where
  /-- `V0` to `VF` (R21). -/
  v : Vector (BitVec Config.vlen) Config.nreg
  /-- The index register (R23). -/
  i : BitVec Config.ilen
  /-- The program counter: the address of the instruction being executed (R25). -/
  pc : BitVec Config.pclen
  /-- The delay timer (R30). -/
  dt : BitVec Config.tlen
  /-- The sound timer (R30). -/
  st : BitVec Config.tlen
  /-- The stack pointer, the count of return addresses held, 0 to 16 (R28; log 14). -/
  sp : Fin (Config.stackDepth + 1)
  /-- The call stack; entries below `sp` are live, oldest first (R29; logs 14 and 27). -/
  stack : Vector (BitVec Config.stackElen) Config.stackDepth
  /-- The 4096 bytes of memory (R31). -/
  mem : Memory
  /-- The display buffer (R32). -/
  fb : Frame
  /-- The 16 key states, an input no instruction reads (R33). -/
  keys : Vector Bool 16
  /-- The host's halt signal, read by the dispatch loop only (R34). -/
  halt : Bool
  deriving DecidableEq, Repr

/-- Every pixel off (R121). -/
def Frame.clear : Frame := Vector.replicate Config.dispH (Vector.replicate Config.dispW false)

/-- The machine right after Reset (R38, R210). Memory lists nothing because an unlisted address reads as its reset
content. Values the source does not fix: logs 1 and 3 to 7. -/
def State.reset : State where
  v := Vector.replicate Config.nreg Config.resetV
  i := Config.resetI
  pc := BitVec.ofNat Config.pclen Config.progBase
  dt := Config.resetDT
  st := Config.resetST
  sp := Config.resetSP
  stack := Vector.replicate Config.stackDepth Config.resetStack
  mem := []
  fb := Frame.clear
  keys := Vector.replicate 16 false
  halt := false

end Sys2Proof.Machine
end

