-- ==== Sys2Proof/Machine/Ops.lean ====
section
/-! DEFINITION. The named operations over memory, registers, the program counter and the call stack, and raising an
error. Every read or write of the state by an instruction goes through one of them. -/

namespace Sys2Proof.Machine

/-! ### Raw bytes: `MEM[a]` -/

/-- What an address reads as when memory does not list it: its content after Reset, `FONT` in `0x000` to `0x04F` and
the memory fill, zero, elsewhere (R38, R51, R67; logs 1 and 6). -/
def Memory.initialByte (a : Nat) : Byte :=
  if Config.fontBase ≤ a ∧ a < Config.fontBase + Config.fontGlyphs * Config.fontGlyphBytes
  then Config.font.getD (a - Config.fontBase) 0
  else Config.memFill

/-- `MEM[a]` with no check (R11). No instruction reaches it with an address above `0xFFF`, where it answers zero (log 28). -/
def Memory.byteAt : Memory → Nat → Byte
  | [], a => Memory.initialByte a
  | (b, u) :: m, a => if a = b then u else Memory.byteAt m a

/-- Take every entry for the address out of the list. -/
def Memory.forget : Memory → Nat → Memory
  | [], _ => []
  | (b, u) :: m, a => if b = a then Memory.forget m a else (b, u) :: Memory.forget m a

/-- Put an entry in at its place in the rising order. -/
def Memory.enter : Memory → Nat → Byte → Memory
  | [], a, v => [(a, v)]
  | (b, u) :: m, a, v => if a < b then (a, v) :: (b, u) :: m else (b, u) :: Memory.enter m a v

/-- `MEM[a] <- v` with no check (R11, R53). Writing what an unlisted address reads as takes the entry away, so equal
memories are equal lists. -/
def Memory.store (m : Memory) (a : Nat) (v : Byte) : Memory :=
  if v = Memory.initialByte a then m.forget a else (m.forget a).enter a v

/-- The canonical form: addresses strictly rising, all of them inside the 4096-byte space (R50), and no entry equal to
what an unlisted address reads as. -/
abbrev Memory.wf (m : Memory) : Prop :=
  m.Pairwise (fun c d => c.1 < d.1) ∧ ∀ c ∈ m, c.1 ≤ Config.addrMax ∧ c.2 ≠ Memory.initialByte c.1

/-! ### Bounds-checked access (R52 to R54) -/

/-- The bound of every access to `len` bytes from `base`: natural-number addresses, never wrapped or masked (R54; log
10). The error carries the lowest address above `0xFFF` that the access would touch (R52, R126, R155; log 9). An access
to no byte cannot fail (R127, R68). -/
def checkSpan (base len : Nat) : Except Fault Unit :=
  if 0 < len ∧ Config.addrMax < base + (len - 1)
  then .error (.outOfBounds (max base Config.memSize))
  else .ok ()

/-- `MemRead(addr, 1)` (R52). -/
def memRead8 (m : Memory) (a : Nat) : Except Fault Byte :=
  match checkSpan a 1 with
  | .error e => .error e
  | .ok _ => .ok (m.byteAt a)

/-- `MemRead(addr, 2)`, big-endian (R52, R55). -/
def memRead16 (m : Memory) (a : Nat) : Except Fault Word :=
  match checkSpan a 2 with
  | .error e => .error e
  | .ok _ => .ok (m.byteAt a ++ m.byteAt (a + 1))

/-- The `len` bytes from `base`, in rising address order, after one check of all of them (R126; log 8). -/
def readSpan (m : Memory) (base len : Nat) : Except Fault (List Byte) :=
  match checkSpan base len with
  | .error e => .error e
  | .ok _ => .ok ((List.range len).map fun r => m.byteAt (base + r))

/-- Store bytes at rising addresses from `base`, with no check. -/
def Memory.storeBytes (m : Memory) (base : Nat) : List Byte → Memory
  | [] => m
  | b :: bs => (m.store base b).storeBytes (base + 1) bs

/-- Store bytes at rising addresses from `base`, all addresses checked before the first write (R53, R68, R155; log 8).
The bound is the only check: the reserved region is written like any other (R58; log 13). -/
def writeSpan (m : Memory) (base : Nat) (bytes : List Byte) : Except Fault Memory :=
  match checkSpan base bytes.length with
  | .error e => .error e
  | .ok _ => .ok (m.storeBytes base bytes)

/-- `MemWrite(addr, 1, v)` (R53). -/
def memWrite8 (m : Memory) (a : Nat) (v : Byte) : Except Fault Memory := writeSpan m a [v]

/-- `MemWrite(addr, 2, v)`, high byte at the lower address; no instruction uses it (R53; log 24). -/
def memWrite16 (m : Memory) (a : Nat) (v : Word) : Except Fault Memory :=
  writeSpan m a [v.extractLsb' 8 8, v.extractLsb' 0 8]

/-- `font_address(digit) = digit * 5` (R66). -/
def fontAddress (digit : Nat) : Nat := Config.fontBase + digit * Config.fontGlyphBytes

/-! ### Registers -/

/-- `V[k]` (R10, R21). -/
def State.readV (s : State) (k : Reg) : Byte := s.v[k.toNat]'k.isLt

/-- `V[k] <- b`; no register is hardwired (R21). -/
def State.writeV (s : State) (k : Reg) (b : Byte) : State := { s with v := s.v.set k.toNat b k.isLt }

/-- `I <- a`, the whole 16-bit register (R111). -/
def State.setI (s : State) (a : Word) : State := { s with i := a }

/-- `PC <- a` (R10). -/
def State.setPc (s : State) (a : Word) : State := { s with pc := a }

/-- Replace memory. -/
def State.setMem (s : State) (m : Memory) : State := { s with mem := m }

/-- Replace the display buffer. -/
def State.setFb (s : State) (f : Frame) : State := { s with fb := f }

/-- `PC <- trunc_16(PC + 2)`: the end of every non-control-flow instruction; modulo 2^16, not 2^12 (R27, R95; log 15). -/
def State.advance (s : State) : State := s.setPc (s.pc + BitVec.ofNat Config.pclen Config.instrBytes)

/-- The Register File's `get(index)` for an index from outside the decoder (R39, R177; log 29). -/
def State.regGet (s : State) (index : Nat) : Except Fault Byte :=
  if 0xF < index then .error (.invalidRegister index) else .ok (s.readV (BitVec.ofNat 4 index))

/-- The Register File's `set(index, value)` for an index from outside the decoder (R39, R177; log 29). -/
def State.regSet (s : State) (index : Nat) (b : Byte) : Except Fault State :=
  if 0xF < index then .error (.invalidRegister index) else .ok (s.writeV (BitVec.ofNat 4 index) b)

/-! ### Call stack -/

/-- Push (R140): store at the old `SP`, then increment; refused at `SP = STACK_DEPTH` with nothing written. Entries at and
above `SP` keep what they last held (R29; log 27). -/
def push (a : Word) (s : State) : Except Fault State :=
  if h : s.sp.val < Config.stackDepth then
    .ok { s with stack := s.stack.set s.sp.val a h, sp := ⟨s.sp.val + 1, Nat.succ_lt_succ h⟩ }
  else .error .stackOverflow

/-- Pop (R141): the mirror of Push. No instruction reaches it (log 24). -/
def pop (s : State) : Except Fault (Word × State) :=
  if h : 0 < s.sp.val then
    .ok (s.stack[s.sp.val - 1]'(by omega), { s with sp := ⟨s.sp.val - 1, by omega⟩ })
  else .error .stackUnderflow

/-! ### Raising an error, and going on after one -/

/-- `raise E(info)` (R12, R186): the step ends in the error. No register saves anything, no vector is taken and no mode
changes; the state stays the one the step began in, whatever was computed before the error (R98; log 8), so the outcome
carries the error alone and `System.coreMove` keeps the state beside it. -/
def raise (e : Fault) : Host.Outcome State Fault Refusal := .fault e

/-- The end of an instruction that was computed as "a state or an error". -/
def finish : Except Fault State → Host.Outcome State Fault Refusal
  | .ok t => .next t
  | .error e => raise e

/-- There is no return-from-trap instruction (R189); going on after an error is the host's Skip, `PC <- PC + 2` (R188;
log 20). -/
def State.skip (s : State) : State := s.advance

end Sys2Proof.Machine
end

