-- ==== Sys2Proof/Machine/Operands.lean ====
section
/-! DEFINITION. Every operand form: the zero-extended `NNN` (30_encoding.md R73), the one addressing mode `I` plus an
offset (R54), the sprite of `DXYN` (42_draw.md R126), the decimal digits of `FX33` (44_bcd_store.md R156). -/

namespace Sys2Proof.Machine

/-- `zext_16(NNN)`, the value of a 12-bit operand in a 16-bit register (R9, R73). -/
def zext16 (nnn : Addr12) : Word := nnn.setWidth 16

/-- `zext(I) + k` as a natural number, never wrapped or masked (R24, R54; log 10). -/
def effectiveAddress (s : State) (k : Nat) : Nat := s.i.toNat + k

/-- The `n` sprite bytes at `I`, all checked and read before any write (R126, R127; log 8). -/
def readSprite (s : State) (n : Nibble) : Except Fault (List Byte) :=
  readSpan s.mem (effectiveAddress s 0) n.toNat

/-- Hundreds, tens, ones of a byte, one binary digit a byte, leading zeros kept (R155, R156). -/
def decimalDigits (v : Byte) : List Byte :=
  [BitVec.ofNat 8 (v.toNat / 100), BitVec.ofNat 8 (v.toNat / 10 % 10), BitVec.ofNat 8 (v.toNat % 10)]

end Sys2Proof.Machine
end

