-- ==== Sys2Proof/Machine/BcdStore.lean ====
section
/-! DEFINITION. The decimal-digit store (44_bcd_store.md R155). -/

namespace Sys2Proof.Machine

/-- `FX33`, LD B, Vx (R155 to R157): the three decimal digits of `V[X]` to `MEM[I]`, `MEM[I+1]`, `MEM[I+2]`, all three
addresses checked before the first write. -/
def execLdBVx (x : Reg) (s : State) : Host.Outcome State Fault Refusal :=
  match writeSpan s.mem (effectiveAddress s 0) (decimalDigits (s.readV x)) with
  | .error e => raise e
  | .ok m => .next (s.setMem m).advance

end Sys2Proof.Machine
end

