-- ==== Sys2Proof/Machine/CallInstr.lean ====
section
/-! DEFINITION. The call instruction (43_call.md R142). -/

namespace Sys2Proof.Machine

/-- `2NNN`, CALL NNN (R142, R143, R146): push the address of this CALL itself, then `PC <- zext_16(NNN)` with no check
of the target and no further advance. -/
def execCallNnn (nnn : Addr12) (s : State) : Host.Outcome State Fault Refusal :=
  match push s.pc s with
  | .error e => raise e
  | .ok t => .next (t.setPc (zext16 nnn))

end Sys2Proof.Machine
end

