-- ==== Sys2Proof/Machine/Flags.lean ====
section
/-! DEFINITION. The one flag of the hardware: `VF` as the collision flag (10_state.md R22, 42_draw.md R123). -/

namespace Sys2Proof.Machine

/-- The register that holds the flag: `VF` is `V[15]` (R21, R22). -/
def flagReg : Reg := 0xF#4

/-- A pixel goes from 1 to 0 exactly when it was 1 and the sprite bit over it is 1 (R123). -/
def pixelCollides (old bit : Bool) : Bool := old && bit

/-- The byte of the flag: `0x01` for collision, `0x00` for none (R22, R126; log 11). -/
def flagByte (collision : Bool) : Byte := if collision then 0x01#8 else 0x00#8

/-- `VF <- flag`, overwritten, not ORed (R126). -/
def State.setFlag (s : State) (collision : Bool) : State := s.writeV flagReg (flagByte collision)

end Sys2Proof.Machine
end

