-- ==== Sys2Proof/Machine/Display.lean ====
section
/-! DEFINITION. The display buffer's operations Clear and Draw (42_draw.md R120 to R125). -/

namespace Sys2Proof.Machine

/-- `FB[row][col]` (R10). -/
def Frame.pixel (f : Frame) (row : Fin Config.dispH) (col : Fin Config.dispW) : Bool := f[row][col]

/-- `FB[row][col] <- b`. -/
def Frame.setPixel (f : Frame) (row : Fin Config.dispH) (col : Fin Config.dispW) (b : Bool) : Frame :=
  f.set row (f[row].set col b)

/-- Clear (R121). Only Reset reaches it. -/
def State.clearDisplay (s : State) : State := s.setFb Frame.clear

/-- `(y + r) mod 32` (R122, R124, 90_conflicts.md C5). -/
def pixelRow (y r : Nat) : Fin Config.dispH := Fin.ofNat Config.dispH (y + r)

/-- `(x + c) mod 64` (R122, R124, 90_conflicts.md C5). -/
def pixelCol (x c : Nat) : Fin Config.dispW := Fin.ofNat Config.dispW (x + c)

/-- `s[r][7 - c]`: bit position `c` from the left, the most significant bit first (R122). -/
def spriteBit (b : Byte) (c : Nat) : Bool := b.getLsbD (7 - c)

/-- The body of Draw's two loops for sprite row `r` with byte `b` and bit position `c` (R122). The pair is the buffer
and the collision so far. -/
def drawBit (x y r : Nat) (b : Byte) (acc : Frame × Bool) (c : Nat) : Frame × Bool :=
  let old := acc.1.pixel (pixelRow y r) (pixelCol x c)
  (acc.1.setPixel (pixelRow y r) (pixelCol x c) (old ^^ spriteBit b c), acc.2 || pixelCollides old (spriteBit b c))

/-- One sprite row: `c` from 0 to 7 (R122). -/
def drawByte (x y r : Nat) (b : Byte) (acc : Frame × Bool) : Frame × Bool :=
  (List.range 8).foldl (drawBit x y r b) acc

/-- The sprite rows from row number `r` on (R122). -/
def drawRows (x y : Nat) : Nat → List Byte → Frame × Bool → Frame × Bool
  | _, [], acc => acc
  | r, b :: bs, acc => drawRows x y (r + 1) bs (drawByte x y r b acc)

/-- `Draw(x, y, sprite_bytes)`: the new buffer and the collision flag (R122, R123). It cannot fail. -/
def draw (f : Frame) (x y : Byte) (bytes : List Byte) : Frame × Bool :=
  drawRows x.toNat y.toNat 0 bytes (f, false)

end Sys2Proof.Machine
end

