-- ==== Sys2Proof/Machine/DrawInstr.lean ====
section
/-! DEFINITION. The draw instruction (42_draw.md R126). -/

namespace Sys2Proof.Machine

/-- `DXYN`, DRW Vx, Vy, N (R126 to R129): read `V[X]`, `V[Y]` and the sprite, draw, then write `VF` last, so that a
coordinate taken from `VF` is its old value (R128; log 16). -/
def execDrwVxVyN (x y : Reg) (n : Nibble) (s : State) : Host.Outcome State Fault Refusal :=
  match readSprite s n with
  | .error e => raise e
  | .ok bytes =>
    let drawn := draw s.fb (s.readV x) (s.readV y) bytes
    .next ((s.setFb drawn.1).setFlag drawn.2).advance

end Sys2Proof.Machine
end

