-- ==== Sys2Proof/Machine/LoadImmediate.lean ====
section
/-! DEFINITION. The load-immediate instructions (41_load_immediate.md). -/

namespace Sys2Proof.Machine

/-- `6XNN`, LD Vx, NN (R110): `V[X] <- NN`. With `X = 0xF` an ordinary write of `VF`. -/
def execLdVxNn (x : Reg) (nn : Byte) (s : State) : Host.Outcome State Fault Refusal :=
  .next (s.writeV x nn).advance

/-- `ANNN`, LD I, NNN (R111): `I <- zext_16(NNN)`. No memory is accessed. -/
def execLdINnn (nnn : Addr12) (s : State) : Host.Outcome State Fault Refusal :=
  .next (s.setI (zext16 nnn)).advance

end Sys2Proof.Machine
end

