-- ==== Sys2Proof/Machine/Unsupported.lean ====
section
/-! DEFINITION. Unsupported encodings (45_unsupported.md R165). -/

namespace Sys2Proof.Machine

/-- Every word that is no instruction (R165, R167, R168): raise `UnsupportedOpcode(w)` and nothing else, in every
state. The decoder never gives it the word of an instruction (log 23). -/
def execUnsupported (w : Word) (_s : State) : Host.Outcome State Fault Refusal :=
  raise (.unsupportedOpcode w)

end Sys2Proof.Machine
end

