-- ==== Sys2Proof/Machine/Dispatch.lean ====
section
/-! DEFINITION. The execute part of a step (40_execution_cycle.md R90, R94): one arm per instruction. -/

namespace Sys2Proof.Machine

def exec (i : Instr) (s : State) : Host.Outcome State Fault Refusal :=
  match i with
  | .callNnn nnn => Sys2Proof.Machine.execCallNnn nnn s
  | .ldVxNn x nn => Sys2Proof.Machine.execLdVxNn x nn s
  | .ldINnn nnn => Sys2Proof.Machine.execLdINnn nnn s
  | .drwVxVyN x y n => Sys2Proof.Machine.execDrwVxVyN x y n s
  | .ldBVx x => Sys2Proof.Machine.execLdBVx x s
  | .unsupported w => Sys2Proof.Machine.execUnsupported w s

end Sys2Proof.Machine
end

