-- ==== Sys2Proof/WellFormed.lean ====
section
/-! DEFINITION. When an instruction term stands for something the decoder can answer.
Every operand value that a constructor's type admits is legal (30_encoding.md R79), so the one check is that the
fallback does not carry the word of an instruction. It is written from the match and mask columns of
spec/opcode_table.json (R83), not from the decoder. -/

namespace Sys2Proof

/-- One row of spec/opcode_table.json: a word belongs to it exactly when its bits under `mask` are `pattern` (R83). -/
structure OpcodeRow where
  mask : Word
  pattern : Word
  deriving DecidableEq, Repr

/-- The five instruction rows of the opcode table, in its order. -/
def opcodeRows : List OpcodeRow :=
  [ { mask := 0xF000, pattern := 0x2000 },    -- CALL NNN
    { mask := 0xF000, pattern := 0x6000 },    -- LD Vx, NN
    { mask := 0xF000, pattern := 0xA000 },    -- LD I, NNN
    { mask := 0xF000, pattern := 0xD000 },    -- DRW Vx, Vy, N
    { mask := 0xF0FF, pattern := 0xF033 } ]   -- LD B, Vx

/-- The word lies in the row. -/
def OpcodeRow.holds (r : OpcodeRow) (w : Word) : Bool := w &&& r.mask == r.pattern

/-- The word lies in one of the five instruction rows. -/
def supportedWord (w : Word) : Bool := opcodeRows.any fun r => r.holds w

/-- Well-formed: the fallback carries only a word of the fallback row (R83, R166). -/
def WellFormed : Instr → Bool
  | .callNnn _ => true
  | .ldVxNn _ _ => true
  | .ldINnn _ => true
  | .drwVxVyN _ _ _ => true
  | .ldBVx _ => true
  | .unsupported w => !supportedWord w

end Sys2Proof
end

