-- ==== Sys2Proof/Decode.lean ====
section
/-! DEFINITION. Decoding and encoding: the fields of an instruction word, `Decode` (30_encoding.md R76), the decoder over
bytes in memory order, the encoder, and the decoder in the numbering of spec/opcode_table.json. -/

namespace Sys2Proof

/-- `w[15:12]`, the primary opcode (R71). -/
def fieldOp (w : Word) : BitVec 4 := w.extractLsb' 12 4

/-- `w[11:8]`, the register index `X` (R71). -/
def fieldX (w : Word) : Reg := w.extractLsb' 8 4

/-- `w[7:4]`, the register index `Y` (R71). -/
def fieldY (w : Word) : Reg := w.extractLsb' 4 4

/-- `w[3:0]`, the sprite height `N` (R71). -/
def fieldN (w : Word) : Nibble := w.extractLsb' 0 4

/-- `w[7:0]`, the immediate `NN` and the secondary identifier `kk` (R71). -/
def fieldNN (w : Word) : Byte := w.extractLsb' 0 8

/-- `w[11:0]`, the address `NNN` (R71, R73). -/
def fieldNNN (w : Word) : Addr12 := w.extractLsb' 0 12

/-- `Decode` of R76: total, and a function of the word alone. -/
def decode (w : Word) : Instr :=
  if fieldOp w = 0x2#4 then .callNnn (fieldNNN w)
  else if fieldOp w = 0x6#4 then .ldVxNn (fieldX w) (fieldNN w)
  else if fieldOp w = 0xA#4 then .ldINnn (fieldNNN w)
  else if fieldOp w = 0xD#4 then .drwVxVyN (fieldX w) (fieldY w) (fieldN w)
  else if fieldOp w = 0xF#4 ∧ fieldNN w = 0x33#8 then .ldBVx (fieldX w)
  else .unsupported w

/-- The word of two bytes in memory order: the high byte lies at the lower address (20_memory.md R55). -/
def wordOfBytes (hi lo : Byte) : Word := hi ++ lo

/-- Why a byte sequence holds no instruction. -/
inductive DecodeError where
  /-- Fewer than two bytes are left: every instruction is one 16-bit word (R70). -/
  | tooFewBytes
  deriving DecidableEq, Repr

/-- Decode the instruction at the front of a byte sequence and give the bytes after it. Total; a word that is no
instruction is the fallback, not an error (R76). -/
def decodeBytes : List Byte → Except DecodeError (Instr × List Byte)
  | hi :: lo :: rest => .ok (decode (wordOfBytes hi lo), rest)
  | [_] => .error .tooFewBytes
  | [] => .error .tooFewBytes

/-- The word of an instruction, from the formats of R72. -/
def encode : Instr → Word
  | .callNnn nnn => 0x2#4 ++ nnn
  | .ldVxNn x nn => 0x6#4 ++ x ++ nn
  | .ldINnn nnn => 0xA#4 ++ nnn
  | .drwVxVyN x y n => 0xD#4 ++ x ++ y ++ n
  | .ldBVx x => 0xF#4 ++ x ++ 0x33#8
  | .unsupported w => w

/-- An instruction's two bytes in memory order (R55, R71). -/
def encodeBytes (i : Instr) : List Byte := [(encode i).extractLsb' 8 8, (encode i).extractLsb' 0 8]

/-- The bytes, in memory order, of an instruction whose low `nbits` bits are `w` in the numbering of
spec/opcode_table.json and whose other bits are 0. One word is one instruction here, so bits 15 to 0 are all there is. -/
def tableBytes (nbits w : Nat) : List Byte :=
  let word := BitVec.ofNat 16 (w % 2 ^ nbits)
  [word.extractLsb' 8 8, word.extractLsb' 0 8]

/-- The instruction the decoder reads from `tableBytes`. -/
def decodeTableWord (nbits w : Nat) : Option Instr :=
  match decodeBytes (tableBytes nbits w) with
  | .ok (i, _) => some i
  | .error _ => none

end Sys2Proof
end

