-- ==== Sys2Proof/Machine/Fetch.lean ====
section
/-! DEFINITION. The `PC` check and the fetch (40_execution_cycle.md R91, R92), and laying a word where the next fetch
reads it. -/

namespace Sys2Proof.Machine

/-- The `PC` invariant without its upper bound: even, and not in the reserved region (R26). -/
def pcInvariant (pc : Word) : Bool := pc.toNat % 2 == 0 && decide (Config.reservedEnd ≤ pc.toNat)

/-- `CheckPC` (R91): the fetch bound first, then, under `STRICT_PC`, the invariant (R184; logs 2 and 26). -/
def checkPC (strict : Bool) (pc : Word) : Except Fault Unit :=
  match checkSpan pc.toNat Config.instrBytes with
  | .error e => .error e
  | .ok _ => if strict && !pcInvariant pc then .error (.invalidPC pc) else .ok ()

/-- `CheckPC`, then `w <- MemRead(PC, 2)` (R90, R92). -/
def fetchWith (strict : Bool) (s : State) : Except Fault Word :=
  match checkPC strict s.pc with
  | .error e => .error e
  | .ok _ => memRead16 s.mem s.pc.toNat

/-- `s` with a word in the numbering of spec/opcode_table.json stored at `PC`. A `PC` that no fetch accepts is first
set to the program's base, which the fetch needs; nothing else changes (log 22). -/
def placeWord (s : State) (nbits w : Nat) : State :=
  let t := match checkPC Config.strictPC s.pc with
    | .ok _ => s
    | .error _ => s.setPc (BitVec.ofNat Config.pclen Config.progBase)
  t.setMem (t.mem.storeBytes t.pc.toNat (tableBytes nbits w))

end Sys2Proof.Machine
end

