-- ==== Sys2Proof/Machine/Step.lean ====
section
/-! DEFINITION. The step of the core (40_execution_cycle.md R90): check `PC`, fetch, decode, execute. -/

namespace Sys2Proof.Machine

/-- `Step` of R90 for either value of the open parameter `STRICT_PC` (spec/92 D3). -/
def stepWith (strict : Bool) (s : State) : Host.Outcome State Fault Refusal :=
  match fetchWith strict s with
  | .error e => raise e
  | .ok w => exec (decode w) s

/-- `Step` of this hardware: `STRICT_PC` is true (R91; log 2). It reads neither `HALT` nor any other input (R104): the
dispatch loop around it is `System.coreMove` (log 17). -/
def step (s : State) : Host.Outcome State Fault Refusal := stepWith Config.strictPC s

/-- `s` with an instruction's word stored where `step` fetches next (log 22). -/
def State.withFetchWord (s : State) (nbits w : Nat) : State := placeWord s nbits w

end Sys2Proof.Machine
end

