-- ==== Sys2Proof/Machine/HostEvents.lean ====
section
/-! DEFINITION. The host's events on the core's state: Load, Tick, `KEYS`, `HALT` (60_exceptions.md R194, R202,
20_memory.md R68, 10_state.md R33, R34). Reset is `State.reset`, Skip is `State.skip`. -/

namespace Sys2Proof.Machine

/-- `Load(image)` (R68; log 21): copy verbatim to `0x200`; an image that does not fit writes nothing. -/
def loadImage (image : List Byte) (s : State) : Except Fault State :=
  if Config.progMaxLen < image.length then .error (.outOfBounds Config.memSize)
  else .ok (s.setMem (s.mem.storeBytes Config.progBase image))

/-- "Decrement if nonzero" for one timer (R194). -/
def tickTimer (t : Byte) : Byte := if t = 0 then t else t - 1

/-- `Tick()` (R194; log 18): each timer on its own, saturating at 0. -/
def State.tick (s : State) : State := { s with dt := tickTimer s.dt, st := tickTimer s.st }

/-- Update `KEYS` (R33). -/
def State.setKeys (s : State) (keys : Vector Bool 16) : State := { s with keys := keys }

/-- Set or clear `HALT` (R34). -/
def State.setHalt (s : State) (halt : Bool) : State := { s with halt := halt }

/-- The read-only display port (R32, R131): row-major, row 0 first, column 0 first (log 25). -/
def State.displayPort (s : State) : List Bool := s.fb.toList.flatMap fun row => row.toList

/-- The number an error shows on an output port (R175; log 9). No rule computes with it. -/
def Fault.code : Fault → Nat
  | .outOfBounds _ => 1
  | .invalidRegister _ => 2
  | .unsupportedOpcode _ => 3
  | .stackOverflow => 4
  | .stackUnderflow => 5
  | .invalidPC _ => 6

end Sys2Proof.Machine
end

