-- ==== Sys2Proof/Machine/Loop.lean ====
section
/-! DEFINITION. The dispatch loop and the host around the core (40_execution_cycle.md R99 to R103, 60_exceptions.md
R186 to R188, R191, R202): the two agents of 00_scope.md R17 as moves of one system. -/

namespace Sys2Proof.Machine

/-- Where the dispatch loop is (R99, R100, R201). -/
inductive Phase where
  /-- No run has begun since Reset. -/
  | idle
  /-- Between two steps of a run. -/
  | running
  /-- The last run returned `Halted`. -/
  | halted
  /-- The last run returned `Faulted` with this error. -/
  | faulted (e : Fault)
  deriving DecidableEq, Repr

/-- The core's state and where the loop is. -/
structure System where
  core : State
  phase : Phase
  deriving DecidableEq, Repr

/-- The host's events (R202). -/
inductive HostEvent where
  | reset
  | load (image : List Byte)
  | startRun
  | setHalt (halt : Bool)
  | tick
  | updateKeys (keys : Vector Bool 16)
  | readDisplay
  | observe
  | skip
  deriving DecidableEq, Repr

/-- What the host gets back from an event (R202). How a run ended is read off the phase. -/
inductive HostReply where
  | done
  | error (e : Fault)
  | display (pixels : List Bool)
  | state (s : State)
  deriving DecidableEq, Repr

/-- A move of the system: a host event, or one turn of the dispatch loop. -/
inductive Move where
  | host (ev : HostEvent)
  | core
  deriving DecidableEq, Repr

/-- After Reset, before anything else. -/
def System.initial : System := { core := State.reset, phase := .idle }

/-- "Outside a run": before the first run or after a run has returned (R202). -/
def Phase.outsideRun : Phase → Bool
  | .idle => true
  | .running => false
  | .halted => true
  | .faulted _ => true

/-- "After `Faulted`" (R202). -/
def Phase.isFaulted : Phase → Bool
  | .idle => false
  | .running => false
  | .halted => false
  | .faulted _ => true

/-- One host event, `none` where R202 and R220 do not permit it (logs 19 to 21). -/
def System.hostMove (ev : HostEvent) (m : System) : Option (System × HostReply) :=
  match ev with
  | .reset => if m.phase.outsideRun then some (System.initial, .done) else none
  | .load image =>
    if m.phase.outsideRun then
      match loadImage image m.core with
      | .ok s => some ({ m with core := s }, .done)
      | .error e => some (m, .error e)
    else none
  | .startRun => if m.phase.outsideRun then some ({ m with phase := .running }, .done) else none
  | .setHalt b => some ({ m with core := m.core.setHalt b }, .done)
  | .tick => some ({ m with core := m.core.tick }, .done)
  | .updateKeys keys => some ({ m with core := m.core.setKeys keys }, .done)
  | .readDisplay => some (m, .display m.core.displayPort)
  | .observe => some (m, .state m.core)
  | .skip => if m.phase.isFaulted then some ({ m with core := m.core.skip }, .done) else none

/-- One turn of the dispatch loop (R99): test `HALT`, then step. A fault ends the run and keeps the state (R98, R186).
`none` outside a run, and where the step has no meaning, which no instruction's has. -/
def System.coreMove (m : System) : Option System :=
  match m.phase with
  | .running =>
    if m.core.halt then some { m with phase := .halted }
    else match step m.core with
      | .next s => some { m with core := s }
      | .fault e => some { m with phase := .faulted e }
      | .refused _ => none
  | .idle => none
  | .halted => none
  | .faulted _ => none

/-- One move of either agent (R17). -/
def System.move (mv : Move) (m : System) : Option System :=
  match mv with
  | .host ev => (m.hostMove ev).map Prod.fst
  | .core => m.coreMove

/-- Any interleaving of the two agents' moves (R19, R102, R191). -/
def System.trace : List Move → System → Option System
  | [], m => some m
  | mv :: mvs, m => (m.move mv).bind (System.trace mvs)

/-- How a run ends (R100), or that the fuel was used up first. -/
inductive RunEnd where
  | halted (s : State)
  | faulted (s : State) (e : Fault)
  | refused (s : State)
  | outOfFuel (s : State)
  deriving DecidableEq, Repr

/-- `Run` of R99 with no host event in between, for at most `fuel` turns of the loop. -/
def dispatchLoop : Nat → State → RunEnd
  | 0, s => .outOfFuel s
  | fuel + 1, s =>
    if s.halt then .halted s
    else match step s with
      | .next t => dispatchLoop fuel t
      | .fault e => .faulted s e
      | .refused _ => .refused s

/-- The number of steps that can complete from a state, at most (R101). -/
def stepBound (s : State) : Nat := (17 - s.sp.val) * 2048 + (16 - s.sp.val)

/-- `Run` of R99: the bound of R101 is fuel enough for every run. -/
def run (s : State) : RunEnd := dispatchLoop (stepBound s + 1) s

end Sys2Proof.Machine
end

