-- ==== Sys2Proof/Safety.lean ====
section
/-! DEFINITION. What claims are stated in terms of: reading an outcome, a legal `PC`, the machine invariant, and what
"unchanged" means. -/

namespace Sys2Proof.Machine

/-- The next state of an outcome, if it has one. -/
def nextState : Host.Outcome State Fault Refusal → Option State
  | .next t => some t
  | .fault _ => none
  | .refused _ => none

/-- The error of an outcome, if it is one. -/
def faultOf : Host.Outcome State Fault Refusal → Option Fault
  | .next _ => none
  | .fault e => some e
  | .refused _ => none

/-- The `PC` invariant of 10_state.md R26: one of `0x200, 0x202, ..., 0xFFE`. -/
abbrev LegalPc (pc : Word) : Prop := 0x200 ≤ pc.toNat ∧ pc.toNat ≤ 0xFFE ∧ pc.toNat % 2 = 0

/-- The word that lies in memory at `PC`, high byte first (R55, R92). -/
def wordAtPc (s : State) : Word := s.mem.byteAt s.pc.toNat ++ s.mem.byteAt (s.pc.toNat + 1)

/-- The machine invariant: memory is in canonical form, `I` is at most `0xFFF` (R24), and every live call-stack entry
is an address that a CALL was fetched from (R26, R29, R143). -/
abbrev Inv (s : State) : Prop :=
  s.mem.wf ∧ s.i.toNat ≤ 0xFFF ∧ ∀ k : Fin 16, k.val < s.sp.val → LegalPc s.stack[k]

/-- Every byte of memory reads as before. -/
def SameMemory (s t : State) : Prop := ∀ a : Nat, t.mem.byteAt a = s.mem.byteAt a

/-- Every byte of memory outside `[base, base + len)` reads as before. -/
def SameMemoryOutside (base len : Nat) (s t : State) : Prop :=
  ∀ a : Nat, a < base ∨ base + len ≤ a → t.mem.byteAt a = s.mem.byteAt a

/-- The state no instruction touches is unchanged: `DT`, `ST`, `KEYS`, `HALT` (10_state.md R37). -/
def SameInputs (s t : State) : Prop := t.dt = s.dt ∧ t.st = s.st ∧ t.keys = s.keys ∧ t.halt = s.halt

/-- The call stack is unchanged, `SP` and all 16 entries. -/
def SameStack (s t : State) : Prop := t.sp = s.sp ∧ t.stack = s.stack

/-- Every general register but those in the list is unchanged. -/
def SameRegsBut (ks : List Reg) (s t : State) : Prop := ∀ k : Reg, k ∉ ks → t.readV k = s.readV k

/-- The sprite of `bytes` drawn at column `x` and row `y` has a bit equal to 1 over the pixel, by the coordinates of
42_draw.md R122 and R124. -/
def SpriteCovers (x y : Byte) (bytes : List Byte) (row : Fin 32) (col : Fin 64) : Prop :=
  ∃ r c : Nat, ∃ h : r < bytes.length, c < 8 ∧ row.val = (y.toNat + r) % 32 ∧ col.val = (x.toNat + c) % 64 ∧
    bytes[r].getLsbD (7 - c) = true

/-- The `n` bytes from `I` on, as `DXYN` names them (R126). -/
def spriteAtI (s : State) (n : Nibble) : List Byte :=
  (List.range n.toNat).map fun r => s.mem.byteAt (effectiveAddress s r)

/-- The two states agree on everything but the timers and the host's two inputs: on the whole of what a step reads or
writes (40_execution_cycle.md R102, R104). -/
def AgreeForStep (s t : State) : Prop :=
  t.v = s.v ∧ t.i = s.i ∧ t.pc = s.pc ∧ t.sp = s.sp ∧ t.stack = s.stack ∧ t.mem = s.mem ∧ t.fb = s.fb

/-- The set of unsupported words in numbers (45_unsupported.md R166): the primary opcode is none of `2`, `6`, `A`, `D`,
`F`, or it is `F` and the low byte is not `0x33`. -/
abbrev OutsideMap (w : Word) : Prop :=
  (w.toNat / 4096 ≠ 2 ∧ w.toNat / 4096 ≠ 6 ∧ w.toNat / 4096 ≠ 10 ∧ w.toNat / 4096 ≠ 13 ∧ w.toNat / 4096 ≠ 15) ∨
  (w.toNat / 4096 = 15 ∧ w.toNat % 256 ≠ 0x33)

/-- The host events that touch nothing a step or the loop reads (40_execution_cycle.md R102). -/
def HostEvent.quiet : HostEvent → Bool
  | .tick => true
  | .updateKeys _ => true
  | .readDisplay => true
  | .observe => true
  | .reset => false
  | .load _ => false
  | .startRun => false
  | .setHalt _ => false
  | .skip => false

/-- A turn of the loop or a quiet host event. -/
def Move.quietOrCore : Move → Bool
  | .core => true
  | .host ev => ev.quiet

/-- A turn of the loop. -/
def Move.isCore : Move → Bool
  | .core => true
  | .host _ => false

end Sys2Proof.Machine
end

