-- ==== Sys2Proof/Certificates/Slice0/Obligations.lean ====
section
/-! DEFINITION. The statements for the provers, in the order encoding, step, instructions, errors, whole machine, host,
reset and memory. Each docstring names the rule it formalises and, where a clause rests on a decision of spec/92, the log
entry. -/

open Sys2Proof Sys2Proof.Machine Host

/-! ### Encoding -/

/-- 30_encoding.md R82: the five worked encodings, as words and as bytes in memory order. -/
def Obligations.DecodesTheWorkedEncodings : Prop :=
  decodeBytes [0x63, 0x7F] = .ok (.ldVxNn 3 0x7F, []) ∧ decodeBytes [0xA2, 0xF0] = .ok (.ldINnn 0x2F0, []) ∧
  decodeBytes [0xD1, 0x25] = .ok (.drwVxVyN 1 2 5, []) ∧ decodeBytes [0x22, 0xA4] = .ok (.callNnn 0x2A4, []) ∧
  decodeBytes [0xFA, 0x33] = .ok (.ldBVx 0xA, []) ∧
  decode 0x637F = .ldVxNn 3 0x7F ∧ decode 0xA2F0 = .ldINnn 0x2F0 ∧ decode 0xD125 = .drwVxVyN 1 2 5 ∧
  decode 0x22A4 = .callNnn 0x2A4 ∧ decode 0xFA33 = .ldBVx 0xA

/-- 30_encoding.md R76: `Decode` as a case analysis on the word's number, every field by division and remainder. -/
def Obligations.DecodeFollowsTheOpcodeMap : Prop :=
  ∀ w : Word,
    (w.toNat / 4096 = 2 → decode w = .callNnn (BitVec.ofNat 12 (w.toNat % 4096))) ∧
    (w.toNat / 4096 = 6 →
      decode w = .ldVxNn (BitVec.ofNat 4 (w.toNat / 256 % 16)) (BitVec.ofNat 8 (w.toNat % 256))) ∧
    (w.toNat / 4096 = 10 → decode w = .ldINnn (BitVec.ofNat 12 (w.toNat % 4096))) ∧
    (w.toNat / 4096 = 13 →
      decode w = .drwVxVyN (BitVec.ofNat 4 (w.toNat / 256 % 16)) (BitVec.ofNat 4 (w.toNat / 16 % 16))
        (BitVec.ofNat 4 (w.toNat % 16))) ∧
    (w.toNat / 4096 = 15 → w.toNat % 256 = 0x33 → decode w = .ldBVx (BitVec.ofNat 4 (w.toNat / 256 % 16))) ∧
    (OutsideMap w → decode w = .unsupported w)

/-- Decoding an encoded well-formed instruction gives it back, with every operand at every value and whatever bytes
follow (30_encoding.md R71 to R73, R79). -/
def Obligations.DecodeOfEncodeIsIdentity : Prop :=
  ∀ i : Instr, WellFormed i = true →
    decode (encode i) = i ∧ ∀ rest : List Byte, decodeBytes (encodeBytes i ++ rest) = .ok (i, rest)

/-- Every word has one meaning: what it decodes to is well-formed and encodes back to the same word, so a word decodes
to the fallback only if no row of the opcode table holds it (30_encoding.md R76, R83). -/
def Obligations.EncodeOfDecodeIsIdentity : Prop :=
  ∀ w : Word, WellFormed (decode w) = true ∧ encode (decode w) = w

/-! ### The step -/

/-- 40_execution_cycle.md R90, R92: at a legal `PC` a step is `exec` of what the two bytes there decode to, the high byte
first, with nothing added around it: the `PC` write is the instruction's own. That the `PC` must be even and at least
`0x200` is the spec's decision D3 (log 2). -/
def Obligations.StepRunsTheDecodedInstruction : Prop :=
  ∀ (s : State) (hi lo : Byte) (i : Instr), LegalPc s.pc → s.mem.byteAt s.pc.toNat = hi →
    s.mem.byteAt (s.pc.toNat + 1) = lo → decodeBytes [hi, lo] = .ok (i, []) → step s = exec i s

/-- 40_execution_cycle.md R91, 60_exceptions.md R184: the fetch bound is tested first, then the `PC` invariant. The kind
`InvalidPC`, the payloads and the order are the spec's decisions D3, D1, D30 (logs 2, 9, 26). -/
def Obligations.FetchFaultsInOrder : Prop :=
  ∀ s : State,
    (0xFFF ≤ s.pc.toNat → step s = .fault (.outOfBounds (max s.pc.toNat 0x1000))) ∧
    (s.pc.toNat ≤ 0xFFE → s.pc.toNat % 2 = 1 ∨ s.pc.toNat < 0x200 → step s = .fault (.invalidPC s.pc))

/-- 40_execution_cycle.md R91, 20_memory.md R56: with `STRICT_PC` false a fetch at an odd or reserved address reads the
two bytes there. The parameter is the spec's decision D3 (log 2). -/
def Obligations.LenientStepFetchesAnywhere : Prop :=
  ∀ s : State, s.pc.toNat ≤ 0xFFE →
    stepWith false s = exec (decode (s.mem.byteAt s.pc.toNat ++ s.mem.byteAt (s.pc.toNat + 1))) s

/-- 40_execution_cycle.md R90: `Step` is total: every state gives a next state or an error, never a refusal. -/
def Obligations.StepGivesNextStateOrError : Prop :=
  ∀ s : State, (∃ t, step s = .next t) ∨ ∃ e, step s = .fault e

/-! ### The instructions -/

/-- 41_load_immediate.md R110: all words `0x6000` to `0x6FFF` are LD Vx, NN; it completes in every state, `V[X]` holds
`NN`, `PC` advances by 2, everything else is as before, for every `X`, `VF` included. -/
def Obligations.LoadByteImmediate : Prop :=
  (∀ w : Word, 0x6000 ≤ w.toNat → w.toNat ≤ 0x6FFF → ∃ x nn, decode w = .ldVxNn x nn ∧
    x.toNat = w.toNat / 256 % 16 ∧ nn.toNat = w.toNat % 256) ∧
  ∀ (x : Reg) (nn : Byte) (s : State), ∃ t, exec (.ldVxNn x nn) s = .next t ∧
    t.readV x = nn ∧ t.pc = s.pc + 2 ∧
    SameRegsBut [x] s t ∧ t.i = s.i ∧ SameStack s t ∧ SameInputs s t ∧ SameMemory s t ∧ t.fb = s.fb

/-- 41_load_immediate.md R111: all words `0xA000` to `0xAFFF` are LD I, NNN; it completes in every state, the whole of `I`
becomes `NNN` zero-extended, `PC` advances by 2, everything else is as before. -/
def Obligations.LoadIndexImmediate : Prop :=
  (∀ w : Word, 0xA000 ≤ w.toNat → w.toNat ≤ 0xAFFF → ∃ nnn, decode w = .ldINnn nnn ∧
    nnn.toNat = w.toNat % 4096) ∧
  ∀ (nnn : Addr12) (s : State), ∃ t, exec (.ldINnn nnn) s = .next t ∧
    t.i.toNat = nnn.toNat ∧ t.pc = s.pc + 2 ∧
    SameRegsBut [] s t ∧ SameStack s t ∧ SameInputs s t ∧ SameMemory s t ∧ t.fb = s.fb

/-- 42_draw.md R126 to R129: DRW completes when it reads no byte or its last byte is at most `0xFFF`. A pixel under a
sprite bit equal to 1 is inverted, every other is as before; `VF` is `0x01` if one of the inverted pixels was on and
`0x00` if none; `PC` advances by 2; everything else is as before, `I` and all of memory included. The coordinates are the
registers' old values, also for `VF`. The flag's byte values, the check before any write, the `N = 0` case and
read-before-write are the spec's decisions D9, D12, D14, D32 (logs 8, 11, 12, 16). -/
def Obligations.DrawCompletes : Prop :=
  ∀ (x y : Reg) (n : Nibble) (s : State), n.toNat = 0 ∨ s.i.toNat + (n.toNat - 1) ≤ 0xFFF →
    ∃ t, exec (.drwVxVyN x y n) s = .next t ∧
      (∀ row col, SpriteCovers (s.readV x) (s.readV y) (spriteAtI s n) row col →
        t.fb.pixel row col = !s.fb.pixel row col) ∧
      (∀ row col, ¬ SpriteCovers (s.readV x) (s.readV y) (spriteAtI s n) row col →
        t.fb.pixel row col = s.fb.pixel row col) ∧
      ((∃ row col, s.fb.pixel row col = true ∧ SpriteCovers (s.readV x) (s.readV y) (spriteAtI s n) row col) →
        t.readV 0xF = 0x01) ∧
      ((¬ ∃ row col, s.fb.pixel row col = true ∧ SpriteCovers (s.readV x) (s.readV y) (spriteAtI s n) row col) →
        t.readV 0xF = 0x00) ∧
      t.pc = s.pc + 2 ∧ SameRegsBut [0xF] s t ∧ t.i = s.i ∧ SameStack s t ∧ SameInputs s t ∧ SameMemory s t

/-- 42_draw.md R127: a draw of zero rows completes whatever `I` holds, touches no pixel, clears `VF` and advances. The
case is the spec's decision D14 (log 12). -/
def Obligations.DrawOfZeroRows : Prop :=
  ∀ (x y : Reg) (s : State), ∃ t, exec (.drwVxVyN x y 0) s = .next t ∧
    t.fb = s.fb ∧ t.readV 0xF = 0x00 ∧ t.pc = s.pc + 2 ∧
    SameRegsBut [0xF] s t ∧ t.i = s.i ∧ SameStack s t ∧ SameInputs s t ∧ SameMemory s t

/-- 42_draw.md R126: DRW raises `OutOfBounds` when a sprite byte lies above `0xFFF`, whatever the display holds. The
payload and the check before any write are the spec's decisions D1 and D12 (logs 8, 9); that such an address faults and is
neither wrapped nor masked is D11 (90_conflicts.md C4; log 10). -/
def Obligations.DrawOutOfBounds : Prop :=
  ∀ (x y : Reg) (n : Nibble) (s : State), 0 < n.toNat → 0xFFF < s.i.toNat + (n.toNat - 1) →
    exec (.drwVxVyN x y n) s = .fault (.outOfBounds (max s.i.toNat 0x1000))

/-- 42_draw.md R123: the flag of Draw says that some pixel of the whole display went from 1 to 0, and a pixel does so
exactly when it was 1 and a sprite bit equal to 1 lies over it. For every sprite of at most 32 rows; DXYN has at most
15. -/
def Obligations.DrawFlagMeansAPixelWentOff : Prop :=
  ∀ (f : Frame) (x y : Byte) (bytes : List Byte), bytes.length ≤ 32 →
    ((draw f x y bytes).2 = true ↔
      ∃ row col, f.pixel row col = true ∧ (draw f x y bytes).1.pixel row col = false) ∧
    ∀ row col, (f.pixel row col = true ∧ (draw f x y bytes).1.pixel row col = false) ↔
      (f.pixel row col = true ∧ SpriteCovers x y bytes row col)

/-- 42_draw.md R124: both axes wrap, each modulo its own size, applied to each pixel's own coordinate, and nothing is
clipped: a sprite byte whose only bit equal to 1 is bit position `c`, in sprite row `r` below rows of zeros, inverts
exactly the pixel at row `(y + r) mod 32` and column `(x + c) mod 64`; so the starting coordinate may be reduced first. -/
def Obligations.DrawWrapsOnBothAxes : Prop :=
  (∀ (f : Frame) (x y : Byte) (r c : Nat), r < 32 → c < 8 → ∀ (row : Fin 32) (col : Fin 64),
    (draw f x y (List.replicate r 0 ++ [BitVec.twoPow 8 (7 - c)])).1.pixel row col =
      (f.pixel row col ^^ (decide (row.val = (y.toNat + r) % 32) && decide (col.val = (x.toNat + c) % 64)))) ∧
  ∀ (f : Frame) (x y : Byte) (bytes : List Byte),
    draw f x y bytes = draw f (BitVec.ofNat 8 (x.toNat % 64)) (BitVec.ofNat 8 (y.toNat % 32)) bytes

/-- 42_draw.md R130: the same draw executed twice in succession, with coordinates that the flag does not overwrite,
restores the display; the second flag says that the first draw turned a pixel on, the first that it turned one off. The
flag's byte values are the spec's decision D9 (log 11); that a draw of zero rows (R127) completes whatever `I` holds, with
the flag clear, is D14 (log 12). -/
def Obligations.DrawTwiceRestoresTheDisplay : Prop :=
  ∀ (x y : Reg) (n : Nibble) (s : State), x ≠ 0xF → y ≠ 0xF → n.toNat = 0 ∨ s.i.toNat + (n.toNat - 1) ≤ 0xFFF →
    ∃ t u, exec (.drwVxVyN x y n) s = .next t ∧ exec (.drwVxVyN x y n) t = .next u ∧ u.fb = s.fb ∧
      (t.readV 0xF = 0x01 ↔ ∃ row col, s.fb.pixel row col = true ∧
        SpriteCovers (s.readV x) (s.readV y) (spriteAtI s n) row col) ∧
      (u.readV 0xF = 0x01 ↔ ∃ row col, s.fb.pixel row col = false ∧
        SpriteCovers (s.readV x) (s.readV y) (spriteAtI s n) row col)

/-- 43_call.md R142: all words `0x2000` to `0x2FFF` are CALL NNN. Below 16 entries it completes: the address of the CALL
itself is recorded at `STACK[SP]`, `SP` is incremented, `PC` is `NNN`, everything else is as before, the other 15 entries
included. At `SP = 16` it raises `StackOverflow`, and the loop that executes it ends with the state as it was. That this error too ends the run
(40_execution_cycle.md R100) is the spec's decision D25 (log 19), and that the unused entries above the new one keep what
they held (10_state.md R29) is D28 (log 27). -/
def Obligations.CallPushesItsOwnAddress : Prop :=
  (∀ w : Word, 0x2000 ≤ w.toNat → w.toNat ≤ 0x2FFF → ∃ nnn, decode w = .callNnn nnn ∧
    nnn.toNat = w.toNat % 4096) ∧
  (∀ (nnn : Addr12) (s : State) (h : s.sp.val < 16), ∃ t, exec (.callNnn nnn) s = .next t ∧
    t.stack[s.sp.val] = s.pc ∧ (∀ k : Fin 16, k.val ≠ s.sp.val → t.stack[k] = s.stack[k]) ∧
    t.sp.val = s.sp.val + 1 ∧ t.pc.toNat = nnn.toNat ∧
    SameRegsBut [] s t ∧ t.i = s.i ∧ SameInputs s t ∧ SameMemory s t ∧ t.fb = s.fb) ∧
  (∀ (nnn : Addr12) (s : State), s.sp.val = 16 → exec (.callNnn nnn) s = .fault .stackOverflow) ∧
  ∀ (nnn : Addr12) (m : System), m.core.sp.val = 16 → LegalPc m.core.pc → decode (wordAtPc m.core) = .callNnn nnn →
    m.phase = .running → m.core.halt = false →
    m.coreMove = some { core := m.core, phase := .faulted .stackOverflow }

/-- 43_call.md R146: CALL accepts any target; an illegal one is reported by the next step, `OutOfBounds` for `0xFFF` and
`InvalidPC` for an odd target or one below `0x200`, with the push already done. That the next fetch checks `PC`, and the
payloads, are the spec's decisions D3 and D1 (logs 2, 9); that the odd target `0xFFF` reports `OutOfBounds` and not
`InvalidPC` is D30, the bound before the invariant (log 26). -/
def Obligations.CallToAnIllegalTargetFaultsNext : Prop :=
  ∀ (nnn : Addr12) (s : State) (h : s.sp.val < 16), ∃ t, exec (.callNnn nnn) s = .next t ∧
    t.sp.val = s.sp.val + 1 ∧ t.stack[s.sp.val] = s.pc ∧
    (nnn.toNat = 0xFFF → step t = .fault (.outOfBounds 0x1000)) ∧
    (nnn.toNat ≤ 0xFFE → nnn.toNat % 2 = 1 ∨ nnn.toNat < 0x200 → step t = .fault (.invalidPC t.pc))

/-- 44_bcd_store.md R155: LD B completes when `I` is at most `0xFFD`; the hundreds, tens and ones of `V[X]` are stored at
`I`, `I + 1`, `I + 2`; `PC` advances by 2; everything else is as before, every other byte of memory included. That the
three addresses are checked before the first write is the spec's decision D13 (log 8); that the store below `0x200` happens
(R58, R157: no write protection) is D15 (log 13). -/
def Obligations.BcdStoresThreeDigits : Prop :=
  ∀ (x : Reg) (s : State), effectiveAddress s 2 ≤ 0xFFF → ∃ t, exec (.ldBVx x) s = .next t ∧
    (t.mem.byteAt (effectiveAddress s 0)).toNat = (s.readV x).toNat / 100 ∧
    (t.mem.byteAt (effectiveAddress s 1)).toNat = (s.readV x).toNat / 10 % 10 ∧
    (t.mem.byteAt (effectiveAddress s 2)).toNat = (s.readV x).toNat % 10 ∧
    SameMemoryOutside (effectiveAddress s 0) 3 s t ∧
    t.pc = s.pc + 2 ∧ SameRegsBut [] s t ∧ t.i = s.i ∧ SameStack s t ∧ SameInputs s t ∧ t.fb = s.fb

/-- 44_bcd_store.md R156: the three stored bytes are binary digits, hundreds at most 2, and `100 h + 10 t + o` is the
register's value; for 0, 7 and 255 they are `(0,0,0)`, `(0,0,7)`, `(2,5,5)`. It completes for every `I` up to `0xFFD`
(R155, R157); below `0x200` that rests on the spec's decision D15, no write protection (log 13). -/
def Obligations.BcdDigitsAddUpToTheRegister : Prop :=
  ∀ (x : Reg) (s : State), s.i.toNat ≤ 0xFFD → ∃ t, exec (.ldBVx x) s = .next t ∧
    ∀ h d o : Nat, h = (t.mem.byteAt s.i.toNat).toNat → d = (t.mem.byteAt (s.i.toNat + 1)).toNat →
      o = (t.mem.byteAt (s.i.toNat + 2)).toNat →
      h ≤ 2 ∧ d ≤ 9 ∧ o ≤ 9 ∧ 100 * h + 10 * d + o = (s.readV x).toNat ∧
      ((s.readV x).toNat = 0 → h = 0 ∧ d = 0 ∧ o = 0) ∧ ((s.readV x).toNat = 7 → h = 0 ∧ d = 0 ∧ o = 7) ∧
      ((s.readV x).toNat = 255 → h = 2 ∧ d = 5 ∧ o = 5)

/-- 44_bcd_store.md R155: LD B raises `OutOfBounds` when `I` is at least `0xFFE`. The payload and the check before any
write are the spec's decisions D1 and D13 (logs 8, 9); that such an address faults and is neither wrapped nor masked is D11
(90_conflicts.md C4; log 10). -/
def Obligations.BcdOutOfBounds : Prop :=
  ∀ (x : Reg) (s : State), 0xFFF < effectiveAddress s 2 →
    exec (.ldBVx x) s = .fault (.outOfBounds (max s.i.toNat 0x1000))

/-- 45_unsupported.md R165: the fallback raises `UnsupportedOpcode` in every state, whatever the word. R165 speaks of the
words that decode to the fallback; that the term raises it for the word of an instruction too, which no decoding gives it,
is the model's own choice (log 23). The payload, the word, is the spec's decision D1 (log 9). -/
def Obligations.UnsupportedInstructionStops : Prop :=
  ∀ (w : Word) (s : State), exec (.unsupported w) s = .fault (.unsupportedOpcode w)

/-- 45_unsupported.md R167, 60_exceptions.md R178: the execute part raises `UnsupportedOpcode` for every word outside the
map, in every state, and that is the only error after a successful fetch of such a word; the loop ends as `Faulted` with
the whole state unchanged, `PC` still at the word, and running again repeats the error. -/
def Obligations.UnsupportedWordChangesNothing : Prop :=
  (∀ (w : Word) (s : State), OutsideMap w → decode w = .unsupported w ∧
    ∃ p, exec (.unsupported w) s = .fault (.unsupportedOpcode p)) ∧
  ∀ m : System, LegalPc m.core.pc → OutsideMap (wordAtPc m.core) → m.phase = .running → m.core.halt = false →
    ∃ p, step m.core = .fault (.unsupportedOpcode p) ∧
      m.coreMove = some { core := m.core, phase := .faulted (.unsupportedOpcode p) } ∧
      System.trace [.core, .host .startRun, .core] m =
        some { core := m.core, phase := .faulted (.unsupportedOpcode p) }

/-! ### Who raises what -/

/-- 45_unsupported.md R166, 60_exceptions.md R178: a step raises `UnsupportedOpcode` exactly on a word outside the map at
a legal `PC`, and reports that word. The payload and the legal `PC` are the spec's decisions D1 and D3 (logs 2, 9). -/
def Obligations.UnsupportedOpcodeExactly : Prop :=
  ∀ (s : State) (p : Word), step s = .fault (.unsupportedOpcode p) ↔
    LegalPc s.pc ∧ OutsideMap (wordAtPc s) ∧ p = wordAtPc s

/-- 60_exceptions.md R176: the four places `OutOfBounds` comes from, and their conditions: the fetch under either value
of `STRICT_PC`, DXYN, FX33, and program load. That a data address above `0xFFF` faults and is neither wrapped nor masked
(R54) is the spec's decision D11 (90_conflicts.md C4; log 10), that an image of exactly `0xE00` bytes loads D22 (log 21),
that a draw of zero rows raises nothing D14 (log 12), that a store below `0x200` raises nothing D15 (log 13), and that the
bound is tested before the `PC` invariant, so that an odd `PC` at or above `0xFFF` raises it, D30 (log 26). -/
def Obligations.OutOfBoundsExactly : Prop :=
  (∀ (strict : Bool) (s : State), (∃ a, fetchWith strict s = .error (.outOfBounds a)) ↔ 0xFFF < s.pc.toNat + 1) ∧
  (∀ (i : Instr) (s : State), (∃ a, exec i s = .fault (.outOfBounds a)) ↔
    (∃ x y n, i = .drwVxVyN x y n ∧ 0 < n.toNat ∧ 0xFFF < s.i.toNat + n.toNat - 1) ∨
    (∃ x, i = .ldBVx x ∧ 0xFFF < s.i.toNat + 2)) ∧
  ∀ (image : List Byte) (s : State), (∃ a, loadImage image s = .error (.outOfBounds a)) ↔ 0xE00 < image.length

/-- 60_exceptions.md R179: `StackOverflow` is raised by CALL at `SP = 16` and by nothing else, in `exec` and in a step. -/
def Obligations.StackOverflowExactly : Prop :=
  (∀ (i : Instr) (s : State), exec i s = .fault .stackOverflow ↔ (∃ nnn, i = .callNnn nnn) ∧ s.sp.val = 16) ∧
  ∀ s : State, step s = .fault .stackOverflow →
    (∃ nnn, decode (wordAtPc s) = .callNnn nnn) ∧ s.sp.val = 16

/-- 60_exceptions.md R177: the Register File's `get` and `set` fail with `InvalidRegister` exactly for an index above
`0xF`, and no step raises it. -/
def Obligations.InvalidRegisterOnlyFromOutside : Prop :=
  (∀ (s : State) (index : Nat) (b : Byte),
    ((∃ k, s.regGet index = .error (.invalidRegister k)) ↔ 0xF < index) ∧
    ((∃ k, s.regSet index b = .error (.invalidRegister k)) ↔ 0xF < index)) ∧
  ∀ (s : State) (k : Nat), step s ≠ .fault (.invalidRegister k)

/-- 60_exceptions.md R180: `StackUnderflow` is what a pop at `SP = 0` raises, and only that; no step raises it. -/
def Obligations.StackUnderflowOnlyFromPop : Prop :=
  (∀ s : State, pop s = .error .stackUnderflow ↔ s.sp.val = 0) ∧
  ∀ s : State, step s ≠ .fault .stackUnderflow

/-! ### The whole machine -/

/-- 40_execution_cycle.md R95, R96: a completed CALL leaves `PC = NNN` exactly; every other completed instruction
advances `PC` by 2, and the sum is not reduced modulo 4096. -/
def Obligations.PcAfterACompletedStep : Prop :=
  ∀ s t : State, step s = .next t →
    (∀ nnn, decode (wordAtPc s) = .callNnn nnn → t.pc.toNat = nnn.toNat) ∧
    ((¬ ∃ nnn, decode (wordAtPc s) = .callNnn nnn) → t.pc = s.pc + 2 ∧ t.pc.toNat = s.pc.toNat + 2)

/-- 43_call.md R141, R148: `SP` never decreases: a completed CALL adds one, every other completed step leaves it, and the
live entries keep their values. -/
def Obligations.StackOnlyGrows : Prop :=
  ∀ s t : State, step s = .next t →
    ((∃ nnn, decode (wordAtPc s) = .callNnn nnn) → t.sp.val = s.sp.val + 1) ∧
    ((¬ ∃ nnn, decode (wordAtPc s) = .callNnn nnn) → t.sp = s.sp) ∧
    ∀ k : Fin 16, k.val < s.sp.val → t.stack[k] = s.stack[k]

/-- 41_load_immediate.md R112: a step changes a general register only by LD Vx, NN on that register, which leaves `NN`
in it, or by DRW on `VF`, which leaves `0x00` or `0x01`; it changes `I` only by LD I, NNN. The flag's byte values are the
spec's decision D9 (log 11). -/
def Obligations.WhereRegisterValuesComeFrom : Prop :=
  ∀ s t : State, step s = .next t →
    (∀ k : Reg, t.readV k ≠ s.readV k →
      decode (wordAtPc s) = .ldVxNn k (t.readV k) ∨
      (k = 0xF ∧ (t.readV k = 0x00 ∨ t.readV k = 0x01) ∧ ∃ x y n, decode (wordAtPc s) = .drwVxVyN x y n)) ∧
    (t.i ≠ s.i → ∃ nnn, decode (wordAtPc s) = .ldINnn nnn ∧ t.i.toNat = nnn.toNat)

/-- 44_bcd_store.md R158: a step changes a byte of memory only by FX33, and only to a digit 0 to 9, so no step makes the
high byte of a supported word. -/
def Obligations.ChangedBytesAreDigits : Prop :=
  ∀ s t : State, step s = .next t → ∀ a : Nat, t.mem.byteAt a ≠ s.mem.byteAt a →
    (t.mem.byteAt a).toNat ≤ 9 ∧ (∃ x, decode (wordAtPc s) = .ldBVx x) ∧
    ∀ lo : Byte, decode (t.mem.byteAt a ++ lo) = .unsupported (t.mem.byteAt a ++ lo)

/-- 20_memory.md R64: a store is seen by the very next fetch: an FX33 that stores over the following instruction makes
the next step raise `UnsupportedOpcode` with the first two digits as its word. The payload is the spec's decision D1
(log 9). -/
def Obligations.StoreIsSeenByTheNextFetch : Prop :=
  ∀ (s : State) (x : Reg), LegalPc s.pc → s.pc.toNat ≤ 0xFFA → decode (wordAtPc s) = .ldBVx x →
    s.i.toNat = s.pc.toNat + 2 → ∃ t, step s = .next t ∧
      step t = .fault (.unsupportedOpcode
        (BitVec.ofNat 16 ((s.readV x).toNat / 100 * 256 + (s.readV x).toNat / 10 % 10)))

/-- 40_execution_cycle.md R104: a step is a function of `V`, `I`, `PC`, `SP`, `STACK`, `MEM` and `FB` alone: two states
that agree on them step alike, whatever `DT`, `ST`, `KEYS` and `HALT` hold, and a step leaves those four as they are. -/
def Obligations.StepIgnoresTimersKeysAndHalt : Prop :=
  ∀ s t : State, AgreeForStep s t →
    (∀ s', step s = .next s' → SameInputs s s' ∧ ∃ t', step t = .next t' ∧ AgreeForStep s' t') ∧
    (∀ e, step s = .fault e → step t = .fault e)

/-- 40_execution_cycle.md R102: with ticks, key updates, display reads and observations at any boundaries, a run ends in
the same phase and the same `V`, `I`, `PC`, `SP`, `STACK`, `MEM`, `FB` as with the loop's turns alone. That host events act at boundaries only is
the spec's decision D17 (log 19). -/
def Obligations.HostScheduleDoesNotReachTheProgram : Prop :=
  ∀ (mvs : List Move) (m m' : System), (∀ mv ∈ mvs, mv.quietOrCore = true) → System.trace mvs m = some m' →
    ∃ m'', System.trace (mvs.filter Move.isCore) m = some m'' ∧ m''.phase = m'.phase ∧
      AgreeForStep m''.core m'.core

/-- 40_execution_cycle.md R101: from any state at most `(17 - SP) * 2048 + (16 - SP)` steps complete before one faults,
so `run`, whose fuel is one turn of the loop more than that, always ends `Halted` or `Faulted`. When `HALT` is
sampled and that every kind of error ends a run are the spec's decisions D31 and D25 (log 19). -/
def Obligations.EveryRunEnds : Prop :=
  (∀ (n : Nat) (s t : State), Sys2Proof.core.run n s = .next t →
    n ≤ (17 - s.sp.val) * 2048 + (16 - s.sp.val)) ∧
  ∀ s : State, (∃ t, run s = .halted t) ∨ ∃ t e, run s = .faulted t e

/-- Every step keeps the machine invariant: memory in canonical form, `I` at most `0xFFF` (10_state.md R24), and every
live call-stack entry an even address in `[0x200, 0xFFE]` (R26, R143; the check of `PC` is the spec's decision D3, log
2). -/
def Obligations.StepKeepsTheInvariant : Prop :=
  ∀ s t : State, Inv s → step s = .next t → Inv t

/-- Every move of either agent keeps the machine invariant: each turn of the dispatch loop and each host event of
60_exceptions.md R202, program load and Skip included (logs 19 to 21). That a fetch checks
`PC` is the spec's decision D3 (log 2); the zeros of `I` and `SP` that Reset leaves are D4 and D6 (logs 3, 5). -/
def Obligations.EveryMoveKeepsTheInvariant : Prop :=
  ∀ (mv : Move) (m m' : System), Inv m.core → m.move mv = some m' → Inv m'.core

/-- 60_exceptions.md R195: once both timers are 0, no move of either agent makes one nonzero. That a tick
leaves a timer at 0 and that Reset gives 0 are the spec's decisions D16 and D4 (logs 3, 18). -/
def Obligations.TimersStayZero : Prop :=
  ∀ (mv : Move) (m m' : System), m.core.dt = 0 ∧ m.core.st = 0 → m.move mv = some m' →
    m'.core.dt = 0 ∧ m'.core.st = 0

/-! ### The loop and the host -/

/-- 40_execution_cycle.md R98, R99: a turn of the loop tests `HALT` first and then returns `Halted` with the state
unchanged; with `HALT` clear it steps, and a step that raises an error ends the run as `Faulted` with every piece of state
as before the step. When `HALT` is sampled, that every error is precise and that every kind of error ends the run are the
spec's decisions D31, D2 and D25 (logs 8, 19). -/
def Obligations.LoopTurnHaltsStepsOrFaults : Prop :=
  ∀ m : System, m.phase = .running →
    (m.core.halt = true → m.coreMove = some { core := m.core, phase := .halted }) ∧
    (∀ t, m.core.halt = false → step m.core = .next t → m.coreMove = some { core := t, phase := .running }) ∧
    (∀ e, m.core.halt = false → step m.core = .fault e →
      m.coreMove = some { core := m.core, phase := .faulted e })

/-- 60_exceptions.md R194: Tick decrements each timer that is not 0, leaves one that is 0, and changes nothing else. That
the timers are independent is the spec's decision D16 (log 18). -/
def Obligations.TickCountsDownToZero : Prop :=
  ∀ m : System, ∃ m' reply, m.hostMove .tick = some (m', reply) ∧
    m'.core.dt.toNat = m.core.dt.toNat - 1 ∧ m'.core.st.toNat = m.core.st.toNat - 1 ∧
    AgreeForStep m.core m'.core ∧ m'.core.keys = m.core.keys ∧ m'.core.halt = m.core.halt ∧ m'.phase = m.phase

/-- 20_memory.md R68: an image of at most `0xE00` bytes is copied to `0x200` and changes no other byte and nothing outside
memory; a longer one raises `OutOfBounds` and writes nothing; both only outside a run. The length and that a failed load
writes nothing are the spec's decision D22 (log 21), and the payload `0x1000` is D1 (log 9); that Load leaves the phase of
the loop as it was is the model's own choice (log 19). -/
def Obligations.LoadCopiesTheImage : Prop :=
  ∀ (image : List Byte) (m : System),
    (m.phase.outsideRun = true → image.length ≤ 0xE00 → ∃ m', m.hostMove (.load image) = some (m', .done) ∧
      (∀ (k : Nat) (h : k < image.length), m'.core.mem.byteAt (0x200 + k) = image[k]) ∧
      SameMemoryOutside 0x200 image.length m.core m'.core ∧
      m'.core = m.core.setMem m'.core.mem ∧ m'.phase = m.phase) ∧
    (m.phase.outsideRun = true → 0xE00 < image.length →
      m.hostMove (.load image) = some (m, .error (.outOfBounds 0x1000))) ∧
    (m.phase.outsideRun = false → m.hostMove (.load image) = none)

/-- 60_exceptions.md R188: after a fault the host may Skip, which adds 2 to `PC` modulo 2^16 and changes nothing else; it
is not permitted otherwise. The event and that it is allowed only after a fault are the spec's decision D26 (log 20), and
the wrap of the sum D19 (log 15); that Skip leaves the phase faulted is the model's own choice (log 20). -/
def Obligations.SkipOnlyAfterAFault : Prop :=
  ∀ m : System,
    (∀ e, m.phase = .faulted e → ∃ m', m.hostMove .skip = some (m', .done) ∧
      m'.core.pc.toNat = (m.core.pc.toNat + 2) % 65536 ∧ m'.core = m.core.setPc m'.core.pc ∧ m'.phase = m.phase) ∧
    ((¬ ∃ e, m.phase = .faulted e) → m.hostMove .skip = none)

/-- 42_draw.md R121: Clear sets every pixel to 0 and touches nothing else. -/
def Obligations.ClearTurnsEveryPixelOff : Prop :=
  ∀ s : State, (∀ row col, s.clearDisplay.fb.pixel row col = false) ∧
    s.clearDisplay = s.setFb s.clearDisplay.fb

/-! ### Reset and memory -/

/-- 10_state.md R38, 70_reset_and_hazards.md R210: from any system outside a run Reset gives the listed values. The
display is the source's own; `V`, `I`, `DT`, `ST`, `PC`, `SP`, `STACK`, the fill of memory, `KEYS` and `HALT` are the
spec's decisions D4 to D7, D18, D25 (logs 3 to 7). That the loop is idle after Reset is the model's own choice (log 19), and
so is the zero that the raw read answers at an address above `0xFFF`, which does not exist (log 28). -/
def Obligations.ResetGivesTheListedValues : Prop :=
  ∀ m : System, m.phase.outsideRun = true → ∃ m', m.hostMove .reset = some (m', .done) ∧ m'.phase = .idle ∧
    (∀ k : Reg, m'.core.readV k = 0) ∧ m'.core.i = 0 ∧ m'.core.pc = 0x200 ∧ m'.core.dt = 0 ∧ m'.core.st = 0 ∧
    m'.core.sp.val = 0 ∧ (∀ k : Fin 16, m'.core.stack[k] = 0) ∧
    (∀ a, a < 0x50 → m'.core.mem.byteAt a = Config.font.getD a 0) ∧
    (∀ a, 0x50 ≤ a → m'.core.mem.byteAt a = 0) ∧
    (∀ row col, m'.core.fb.pixel row col = false) ∧ (∀ k : Fin 16, m'.core.keys[k] = false) ∧
    m'.core.halt = false

/-- The state after reset meets the machine invariant (10_state.md R24, R38). The zeros of `I` and `SP` after reset are the
spec's decisions D4 and D6 (logs 3, 5). -/
def Obligations.ResetMeetsTheInvariant : Prop := Inv State.reset

/-- 20_memory.md R66: glyph `d` lies at `font_address(d) = 5 * d` in the memory after reset, whatever the bytes of `FONT`
are; `font_address(0xA)` is 50. -/
def Obligations.FontLiesAtFiveTimesTheDigit : Prop :=
  fontAddress 0xA = 50 ∧ ∀ d k : Nat, d < 16 → k < 5 →
    memRead8 State.reset.mem (fontAddress d + k) = .ok (Config.font.getD (5 * d + k) 0)

/-- 20_memory.md R52, R53: a 2-byte write inside the space is read back whole, its high byte at the lower address, and
leaves every other byte; outside the space it raises `OutOfBounds` and so does the read. The payload and the byte order of
the write are the spec's decisions D1 and D21 (logs 9, 24), and that a write below `0x200` happens (R58) is D15 (log
13); that an address above `0xFFF` faults and is neither wrapped nor masked (R54) is D11 (log 10). -/
def Obligations.WordWriteIsReadBack : Prop :=
  ∀ (m : Memory) (a : Nat) (v : Word),
    (a + 1 ≤ 0xFFF → ∃ m', memWrite16 m a v = .ok m' ∧ memRead16 m' a = .ok v ∧
      (memRead8 m' a = .ok (v.extractLsb' 8 8)) ∧ (memRead8 m' (a + 1) = .ok (v.extractLsb' 0 8)) ∧
      ∀ b, b ≠ a → b ≠ a + 1 → m'.byteAt b = m.byteAt b) ∧
    (0xFFF < a + 1 → memWrite16 m a v = .error (.outOfBounds (max a 0x1000)) ∧
      memRead16 m a = .error (.outOfBounds (max a 0x1000)))
end

