-- ==== Sys2Proof/Laws/Decode.lean ====
section
/-! SUPPORT. Fields as arithmetic, the cases of `decode`, and that the opcode table's rows do not overlap. -/

namespace Sys2Proof

theorem fieldOp_toNat (w : Word) : (fieldOp w).toNat = w.toNat / 4096 := by
  have := w.isLt
  simp only [fieldOp, BitVec.extractLsb'_toNat, Nat.shiftRight_eq_div_pow]
  omega

theorem fieldX_toNat (w : Word) : (fieldX w).toNat = w.toNat / 256 % 16 := by
  simp [fieldX, BitVec.extractLsb'_toNat, Nat.shiftRight_eq_div_pow]

theorem fieldY_toNat (w : Word) : (fieldY w).toNat = w.toNat / 16 % 16 := by
  simp [fieldY, BitVec.extractLsb'_toNat, Nat.shiftRight_eq_div_pow]

theorem fieldN_toNat (w : Word) : (fieldN w).toNat = w.toNat % 16 := by
  simp [fieldN]

theorem fieldNN_toNat (w : Word) : (fieldNN w).toNat = w.toNat % 256 := by
  simp [fieldNN]

theorem fieldNNN_toNat (w : Word) : (fieldNNN w).toNat = w.toNat % 4096 := by
  simp [fieldNNN]

/-- What `decode` can answer, and when (R76). -/
theorem decode_cases (w : Word) :
    (fieldOp w = 2#4 ∧ decode w = .callNnn (fieldNNN w)) ∨
    (fieldOp w = 6#4 ∧ decode w = .ldVxNn (fieldX w) (fieldNN w)) ∨
    (fieldOp w = 10#4 ∧ decode w = .ldINnn (fieldNNN w)) ∨
    (fieldOp w = 13#4 ∧ decode w = .drwVxVyN (fieldX w) (fieldY w) (fieldN w)) ∨
    ((fieldOp w = 15#4 ∧ fieldNN w = 0x33#8) ∧ decode w = .ldBVx (fieldX w)) ∨
    ((fieldOp w ≠ 2#4 ∧ fieldOp w ≠ 6#4 ∧ fieldOp w ≠ 10#4 ∧ fieldOp w ≠ 13#4 ∧
      ¬ (fieldOp w = 15#4 ∧ fieldNN w = 0x33#8)) ∧ decode w = .unsupported w) := by
  unfold decode
  by_cases h2 : fieldOp w = 2#4
  · simp [h2]
  by_cases h6 : fieldOp w = 6#4
  · simp [h6]
  by_cases hA : fieldOp w = 10#4
  · simp [hA]
  by_cases hD : fieldOp w = 13#4
  · simp [hD]
  by_cases hF : fieldOp w = 15#4 ∧ fieldNN w = 0x33#8
  · simp [hF]
  · simp [h2, h6, hA, hD, hF]

/-- Only a fallback word is reported, and it is reported whole (R165). -/
theorem decode_unsupported {w u : Word} (h : decode w = .unsupported u) : u = w := by
  rcases decode_cases w with ⟨_, e⟩ | ⟨_, e⟩ | ⟨_, e⟩ | ⟨_, e⟩ | ⟨_, e⟩ | ⟨_, e⟩ <;> rw [e] at h <;> cases h
  rfl

/-- A word is its primary opcode, its `X` and its low byte. -/
theorem word_ext {w u : Word} (h1 : fieldOp w = fieldOp u) (h2 : fieldX w = fieldX u) (h3 : fieldNN w = fieldNN u) :
    w = u := by
  have e1 := congrArg BitVec.toNat h1
  have e2 := congrArg BitVec.toNat h2
  have e3 := congrArg BitVec.toNat h3
  rw [fieldOp_toNat, fieldOp_toNat] at e1
  rw [fieldX_toNat, fieldX_toNat] at e2
  rw [fieldNN_toNat, fieldNN_toNat] at e3
  exact BitVec.eq_of_toNat_eq (by omega)

/-- A row's comparison, field by field. -/
theorem holds_iff (r : OpcodeRow) (w : Word) :
    r.holds w = true ↔ fieldOp w &&& fieldOp r.mask = fieldOp r.pattern ∧
      fieldX w &&& fieldX r.mask = fieldX r.pattern ∧ fieldNN w &&& fieldNN r.mask = fieldNN r.pattern := by
  have a1 : fieldOp (w &&& r.mask) = fieldOp w &&& fieldOp r.mask := BitVec.extractLsb'_and
  have a2 : fieldX (w &&& r.mask) = fieldX w &&& fieldX r.mask := BitVec.extractLsb'_and
  have a3 : fieldNN (w &&& r.mask) = fieldNN w &&& fieldNN r.mask := BitVec.extractLsb'_and
  simp only [OpcodeRow.holds, beq_iff_eq, ← a1, ← a2, ← a3]
  exact ⟨fun h => by rw [h]; exact ⟨rfl, rfl, rfl⟩, fun h => word_ext h.1 h.2.1 h.2.2⟩

/-- The words of the five rows, by their fields (R74, R75). -/
theorem supportedWord_iff (w : Word) :
    supportedWord w = true ↔ fieldOp w = 2#4 ∨ fieldOp w = 6#4 ∨ fieldOp w = 10#4 ∨ fieldOp w = 13#4 ∨
      (fieldOp w = 15#4 ∧ fieldNN w = 0x33#8) := by
  have hop : ∀ b : BitVec 4, b &&& 15#4 = b := by decide
  have hnn : ∀ b : BitVec 8, b &&& 255#8 = b := by decide
  simp only [supportedWord, opcodeRows, List.any_cons, List.any_nil, Bool.or_eq_true, holds_iff]
  simp only [show fieldOp 0xF000 = 15#4 by decide, show fieldX 0xF000 = 0#4 by decide,
    show fieldNN 0xF000 = 0#8 by decide, show fieldOp 0xF0FF = 15#4 by decide, show fieldX 0xF0FF = 0#4 by decide,
    show fieldNN 0xF0FF = 255#8 by decide, show fieldOp 0x2000 = 2#4 by decide, show fieldOp 0x6000 = 6#4 by decide,
    show fieldOp 0xA000 = 10#4 by decide, show fieldOp 0xD000 = 13#4 by decide, show fieldOp 0xF033 = 15#4 by decide,
    show fieldNN 0xF033 = 0x33#8 by decide, show fieldX 0xF033 = 0#4 by decide,
    show fieldX 0x2000 = 0#4 by decide, show fieldX 0x6000 = 0#4 by decide, show fieldX 0xA000 = 0#4 by decide,
    show fieldX 0xD000 = 0#4 by decide, show fieldNN 0x2000 = 0#8 by decide, show fieldNN 0x6000 = 0#8 by decide,
    show fieldNN 0xA000 = 0#8 by decide, show fieldNN 0xD000 = 0#8 by decide, hop, hnn, BitVec.and_zero]
  simp

/-- Two rows that differ in a bit that both compare hold no word in common. -/
theorem rows_disjoint {r q : OpcodeRow} (h : (r.pattern ^^^ q.pattern) &&& (r.mask &&& q.mask) ≠ 0#16) (w : Word) :
    ¬ (r.holds w = true ∧ q.holds w = true) := by
  rintro ⟨h1, h2⟩
  simp only [OpcodeRow.holds, beq_iff_eq] at h1 h2
  apply h
  rw [← h1, ← h2]
  ext i hi
  simp only [BitVec.getElem_and, BitVec.getElem_xor, BitVec.getElem_zero]
  cases w[i] <;> cases r.mask[i] <;> cases q.mask[i] <;> rfl

/-- The five instruction rows are mutually exclusive, so their order does not matter (R83). -/
theorem opcodeRows_disjoint :
    opcodeRows.Pairwise fun r q => (r.pattern ^^^ q.pattern) &&& (r.mask &&& q.mask) ≠ 0#16 := by decide

end Sys2Proof
end

