-- ==== Sys2Proof/Laws/Draw.lean ====
section
/-! SUPPORT. What Draw does to every pixel and what its flag means (42_draw.md R122 to R125): each sprite bit equal to 1
inverts the one pixel it lies over, and the flag says that one of those pixels was on. -/

namespace Sys2Proof.Machine

/-! ### One pixel -/

/-- A pixel write, said once. -/
theorem Frame.pixel_setPixel (f : Frame) (row row' : Fin 32) (col col' : Fin 64) (b : Bool) :
    (f.setPixel row col b).pixel row' col' = if row' = row ∧ col' = col then b else f.pixel row' col' := by
  unfold Frame.setPixel Frame.pixel
  by_cases hr : row' = row
  · subst hr
    by_cases hc : col' = col
    · subst hc; simp
    · have : col.val ≠ col'.val := fun e => hc (Fin.ext e.symm)
      simp [hc, Vector.getElem_set_ne, this]
  · have : row.val ≠ row'.val := fun e => hr (Fin.ext e.symm)
    simp [hr, Vector.getElem_set_ne, this]

/-- Clear leaves every pixel off (R121). -/
theorem Frame.pixel_clear (row : Fin 32) (col : Fin 64) : Frame.clear.pixel row col = false := by
  simp [Frame.clear, Frame.pixel]

/-- Two buffers with the same pixels are the same buffer. -/
theorem Frame.ext_pixel {f g : Frame} (h : ∀ row col, f.pixel row col = g.pixel row col) : f = g := by
  apply Vector.ext; intro r hr
  apply Vector.ext; intro c hc
  exact h ⟨r, hr⟩ ⟨c, hc⟩

theorem pixelCol_val (x c : Nat) : (pixelCol x c).val = (x + c) % 64 := rfl

theorem pixelRow_val (y r : Nat) : (pixelRow y r).val = (y + r) % 32 := rfl

/-- The eight columns of a sprite row are distinct (R125). -/
theorem pixelCol_ne (x : Nat) {c d : Nat} (hc : c < 8) (hd : d < 8) (h : c ≠ d) : pixelCol x c ≠ pixelCol x d := by
  intro e
  have := congrArg Fin.val e
  simp only [pixelCol_val] at this
  omega

/-- The rows of a sprite of at most 32 rows are distinct (R125). -/
theorem pixelRow_ne (y : Nat) {r q : Nat} (h : r < q) (hq : q < r + 32) : pixelRow y r ≠ pixelRow y q := by
  intro e
  have := congrArg Fin.val e
  simp only [pixelRow_val] at this
  omega

/-! ### One sprite row -/

/-- The bit positions of `cs` put a bit equal to 1 over column `col`. -/
def bitsOver (x : Nat) (b : Byte) (cs : List Nat) (col : Fin 64) : Bool :=
  cs.any fun c => decide (col = pixelCol x c) && spriteBit b c

theorem bitsOver_cons (x : Nat) (b : Byte) (c : Nat) (cs : List Nat) (col : Fin 64) :
    bitsOver x b (c :: cs) col = ((decide (col = pixelCol x c) && spriteBit b c) || bitsOver x b cs col) := rfl

theorem bitsOver_fresh {x : Nat} {b : Byte} {c : Nat} {cs : List Nat} (hc : c < 8)
    (hcs : ∀ d ∈ cs, d < 8 ∧ d ≠ c) : bitsOver x b cs (pixelCol x c) = false := by
  simp only [bitsOver, List.any_eq_false, Bool.and_eq_true, decide_eq_true_eq, not_and]
  intro d hd e
  exact absurd e (pixelCol_ne x hc (hcs d hd).1 (hcs d hd).2.symm)

/-- The loop over bit positions inverts exactly the pixels of its row under a bit equal to 1. -/
theorem pixel_foldl_drawBit (x y r : Nat) (b : Byte) (cs : List Nat) (hn : cs.Nodup) (h8 : ∀ c ∈ cs, c < 8)
    (acc : Frame × Bool) (row : Fin 32) (col : Fin 64) :
    (cs.foldl (drawBit x y r b) acc).1.pixel row col =
      (acc.1.pixel row col ^^ (decide (row = pixelRow y r) && bitsOver x b cs col)) := by
  induction cs generalizing acc with
  | nil => simp [bitsOver]
  | cons c cs ih =>
    rw [List.nodup_cons] at hn
    have hc := h8 c (by simp)
    have hcs : ∀ d ∈ cs, d < 8 ∧ d ≠ c := fun d hd => ⟨h8 d (by simp [hd]), fun e => hn.1 (e ▸ hd)⟩
    rw [List.foldl_cons, ih hn.2 (fun d hd => (hcs d hd).1), bitsOver_cons]
    simp only [drawBit, Frame.pixel_setPixel]
    by_cases hr : row = pixelRow y r
    · by_cases hcol : col = pixelCol x c
      · subst hr hcol
        simp [bitsOver_fresh hc hcs]
      · simp [hr, hcol]
    · simp [hr]

/-- The loop over bit positions reports the pixels it turned off (R123). -/
theorem flag_foldl_drawBit (x y r : Nat) (b : Byte) (cs : List Nat) (hn : cs.Nodup) (h8 : ∀ c ∈ cs, c < 8)
    (acc : Frame × Bool) :
    (cs.foldl (drawBit x y r b) acc).2 = true ↔
      acc.2 = true ∨ ∃ col, acc.1.pixel (pixelRow y r) col = true ∧ bitsOver x b cs col = true := by
  induction cs generalizing acc with
  | nil => simp [bitsOver]
  | cons c cs ih =>
    rw [List.nodup_cons] at hn
    have hc := h8 c (by simp)
    have hcs : ∀ d ∈ cs, d < 8 ∧ d ≠ c := fun d hd => ⟨h8 d (by simp [hd]), fun e => hn.1 (e ▸ hd)⟩
    rw [List.foldl_cons, ih hn.2 (fun d hd => (hcs d hd).1)]
    simp only [drawBit, pixelCollides, Frame.pixel_setPixel, bitsOver_cons, Bool.or_eq_true, Bool.and_eq_true,
      decide_eq_true_eq]
    constructor
    · rintro ((h | ⟨h1, h2⟩) | ⟨col, h1, h2⟩)
      · exact .inl h
      · exact .inr ⟨_, h1, .inl ⟨rfl, h2⟩⟩
      · have hne : col ≠ pixelCol x c := by
          rintro rfl
          rw [bitsOver_fresh hc hcs] at h2; cases h2
        simp only [hne, and_false, if_false] at h1
        exact .inr ⟨col, h1, .inr h2⟩
    · rintro (h | ⟨col, h1, ⟨rfl, h2⟩ | h2⟩)
      · exact .inl (.inl h)
      · exact .inl (.inr ⟨h1, h2⟩)
      · by_cases hcol : col = pixelCol x c
        · subst hcol; rw [bitsOver_fresh hc hcs] at h2; cases h2
        · exact .inr ⟨col, by simpa [hcol] using h1, h2⟩

/-- The byte of sprite row `r` has a bit equal to 1 over the pixel. -/
def ByteCovers (x y r : Nat) (b : Byte) (row : Fin 32) (col : Fin 64) : Prop :=
  row = pixelRow y r ∧ bitsOver x b (List.range 8) col = true

/-- One sprite row, said once: a covered pixel is inverted, every other is as before. -/
theorem pixel_drawByte (x y r : Nat) (b : Byte) (acc : Frame × Bool) (row : Fin 32) (col : Fin 64) :
    (ByteCovers x y r b row col → (drawByte x y r b acc).1.pixel row col = !acc.1.pixel row col) ∧
    (¬ ByteCovers x y r b row col → (drawByte x y r b acc).1.pixel row col = acc.1.pixel row col) := by
  have h := pixel_foldl_drawBit x y r b (List.range 8) List.nodup_range (fun c hc => List.mem_range.1 hc) acc row col
  unfold drawByte ByteCovers
  rw [h]
  by_cases hr : row = pixelRow y r <;> cases hb : bitsOver x b (List.range 8) col <;> simp [hr]

/-- The flag of one sprite row: the flag before it, or a covered pixel that was on. -/
theorem flag_drawByte (x y r : Nat) (b : Byte) (acc : Frame × Bool) :
    (drawByte x y r b acc).2 = true ↔
      acc.2 = true ∨ ∃ row col, acc.1.pixel row col = true ∧ ByteCovers x y r b row col := by
  unfold drawByte ByteCovers
  rw [flag_foldl_drawBit x y r b _ List.nodup_range fun c hc => List.mem_range.1 hc]
  constructor
  · rintro (h | ⟨col, h1, h2⟩)
    · exact .inl h
    · exact .inr ⟨_, col, h1, rfl, h2⟩
  · rintro (h | ⟨row, col, h1, rfl, h2⟩)
    · exact .inl h
    · exact .inr ⟨col, h1, h2⟩

/-! ### The whole sprite -/

/-- Some byte of the sprite rows from row number `r` on has a bit equal to 1 over the pixel. -/
def RowsCover (x y : Nat) : Nat → List Byte → Fin 32 → Fin 64 → Prop
  | _, [], _, _ => False
  | r, b :: bs, row, col => ByteCovers x y r b row col ∨ RowsCover x y (r + 1) bs row col

theorem rowsCover_row {x y r : Nat} {bs : List Byte} {row : Fin 32} {col : Fin 64} (h : RowsCover x y r bs row col) :
    ∃ q, r ≤ q ∧ q < r + bs.length ∧ row = pixelRow y q := by
  induction bs generalizing r with
  | nil => cases h
  | cons b bs ih =>
    rcases h with h | h
    · exact ⟨r, Nat.le_refl r, by simp, h.1⟩
    · obtain ⟨q, h1, h2, h3⟩ := ih h
      exact ⟨q, by omega, by simp only [List.length_cons]; omega, h3⟩

/-- No pixel is covered by two sprite rows (R125). -/
theorem rowsCover_disjoint {x y r : Nat} {b : Byte} {bs : List Byte} (hlen : bs.length < 32) {row : Fin 32}
    {col : Fin 64} (h : ByteCovers x y r b row col) : ¬ RowsCover x y (r + 1) bs row col := by
  intro h'
  obtain ⟨q, h1, h2, h3⟩ := rowsCover_row h'
  exact pixelRow_ne y (r := r) (q := q) (by omega) (by omega) (h.1.symm.trans h3)

/-- The rows from `r` on, said once. -/
theorem pixel_drawRows (x y r : Nat) (bs : List Byte) (hlen : bs.length ≤ 32) (acc : Frame × Bool) (row : Fin 32)
    (col : Fin 64) :
    (RowsCover x y r bs row col → (drawRows x y r bs acc).1.pixel row col = !acc.1.pixel row col) ∧
    (¬ RowsCover x y r bs row col → (drawRows x y r bs acc).1.pixel row col = acc.1.pixel row col) := by
  induction bs generalizing r acc with
  | nil => exact ⟨fun h => absurd h id, fun _ => rfl⟩
  | cons b bs ih =>
    simp only [List.length_cons] at hlen
    have hb := pixel_drawByte x y r b acc row col
    have hi := ih (r + 1) (by omega) (drawByte x y r b acc)
    constructor
    · rintro (h | h)
      · rw [drawRows, hi.2 (rowsCover_disjoint (by omega) h), hb.1 h]
      · rw [drawRows, hi.1 h, hb.2 fun h' => rowsCover_disjoint (by omega) h' h]
    · intro h
      rw [drawRows, hi.2 fun h' => h (.inr h'), hb.2 fun h' => h (.inl h')]

theorem flag_drawRows (x y r : Nat) (bs : List Byte) (hlen : bs.length ≤ 32) (acc : Frame × Bool) :
    (drawRows x y r bs acc).2 = true ↔
      acc.2 = true ∨ ∃ row col, acc.1.pixel row col = true ∧ RowsCover x y r bs row col := by
  induction bs generalizing r acc with
  | nil => simp [drawRows, RowsCover]
  | cons b bs ih =>
    simp only [List.length_cons] at hlen
    rw [drawRows, ih (r + 1) (by omega), flag_drawByte]
    constructor
    · rintro ((h | ⟨row, col, h1, h2⟩) | ⟨row, col, h1, h2⟩)
      · exact .inl h
      · exact .inr ⟨row, col, h1, .inl h2⟩
      · refine .inr ⟨row, col, ?_, .inr h2⟩
        rwa [(pixel_drawByte x y r b acc row col).2 fun h' => rowsCover_disjoint (by omega) h' h2] at h1
    · rintro (h | ⟨row, col, h1, h2 | h2⟩)
      · exact .inl (.inl h)
      · exact .inl (.inr ⟨row, col, h1, h2⟩)
      · refine .inr ⟨row, col, ?_, h2⟩
        rwa [(pixel_drawByte x y r b acc row col).2 fun h' => rowsCover_disjoint (by omega) h' h2]

theorem rowsCover_iff (x y r : Nat) (bs : List Byte) (row : Fin 32) (col : Fin 64) :
    RowsCover x y r bs row col ↔ ∃ k c : Nat, ∃ h : k < bs.length, c < 8 ∧ row.val = (y + (r + k)) % 32 ∧
      col.val = (x + c) % 64 ∧ bs[k].getLsbD (7 - c) = true := by
  induction bs generalizing r with
  | nil => simp [RowsCover]
  | cons b bs ih =>
    have hbyte : ByteCovers x y r b row col ↔ ∃ c, c < 8 ∧ row.val = (y + r) % 32 ∧ col.val = (x + c) % 64 ∧
        b.getLsbD (7 - c) = true := by
      simp only [ByteCovers, bitsOver, List.any_eq_true, List.mem_range, Bool.and_eq_true, decide_eq_true_eq,
        Fin.ext_iff, pixelRow_val, pixelCol_val, spriteBit]
      constructor
      · rintro ⟨h1, c, h2, h3, h4⟩; exact ⟨c, h2, h1, h3, h4⟩
      · rintro ⟨c, h2, h1, h3, h4⟩; exact ⟨h1, c, h2, h3, h4⟩
    rw [RowsCover, ih, hbyte]
    constructor
    · rintro (⟨c, h⟩ | ⟨k, c, hk, h1, h2, h3, h4⟩)
      · exact ⟨0, c, by simp, h⟩
      · exact ⟨k + 1, c, by simpa using hk, h1, by rw [h2]; congr 1; omega, h3, by simpa using h4⟩
    · rintro ⟨k, c, hk, h1, h2, h3, h4⟩
      cases k with
      | zero => exact .inl ⟨c, h1, h2, h3, h4⟩
      | succ k =>
        exact .inr ⟨k, c, by simpa using hk, h1, by rw [h2]; congr 1; omega, h3, by simpa using h4⟩

/-- `SpriteCovers` is the coverage that Draw's loops realise. -/
theorem spriteCovers_iff (x y : Byte) (bs : List Byte) (row : Fin 32) (col : Fin 64) :
    SpriteCovers x y bs row col ↔ RowsCover x.toNat y.toNat 0 bs row col := by
  rw [rowsCover_iff]; simp [SpriteCovers]

/-- Draw, said once for every pixel (R122, R124, R125): a covered pixel is inverted, every other is as before. -/
theorem pixel_draw (f : Frame) (x y : Byte) (bs : List Byte) (hlen : bs.length ≤ 32) (row : Fin 32) (col : Fin 64) :
    (SpriteCovers x y bs row col → (draw f x y bs).1.pixel row col = !f.pixel row col) ∧
    (¬ SpriteCovers x y bs row col → (draw f x y bs).1.pixel row col = f.pixel row col) := by
  rw [spriteCovers_iff]
  exact pixel_drawRows _ _ 0 bs hlen (f, false) row col

/-- Draw's flag, said once: some covered pixel was on (R123). -/
theorem flag_draw (f : Frame) (x y : Byte) (bs : List Byte) (hlen : bs.length ≤ 32) :
    (draw f x y bs).2 = true ↔ ∃ row col, f.pixel row col = true ∧ SpriteCovers x y bs row col := by
  simp only [spriteCovers_iff]
  simpa [draw] using flag_drawRows x.toNat y.toNat 0 bs hlen (f, false)

end Sys2Proof.Machine
end

