-- ==== Sys2Proof/Laws/Memory.lean ====
section
/-! SUPPORT. The laws of memory: read after write, the canonical form, and what each bounds-checked access can do. -/

namespace Sys2Proof.Machine

/-! ### One byte -/

theorem Memory.byteAt_forget_ne (m : Memory) {a b : Nat} (h : b ≠ a) : (m.forget a).byteAt b = m.byteAt b := by
  induction m with
  | nil => rfl
  | cons c m ih =>
    obtain ⟨d, u⟩ := c
    by_cases hd : d = a
    · subst hd; simp [Memory.forget, Memory.byteAt, h, ih]
    · simp [Memory.forget, Memory.byteAt, hd, ih]

theorem Memory.byteAt_forget_same (m : Memory) (a : Nat) : (m.forget a).byteAt a = Memory.initialByte a := by
  induction m with
  | nil => rfl
  | cons c m ih =>
    obtain ⟨d, u⟩ := c
    by_cases hd : d = a
    · simp [Memory.forget, hd, ih]
    · simp [Memory.forget, Memory.byteAt, hd, Ne.symm hd, ih]

theorem Memory.byteAt_enter_same (m : Memory) (a : Nat) (v : Byte) (h : ∀ c ∈ m, c.1 ≠ a) :
    (m.enter a v).byteAt a = v := by
  induction m with
  | nil => simp [Memory.enter, Memory.byteAt]
  | cons c m ih =>
    obtain ⟨d, u⟩ := c
    have hd : a ≠ d := fun e => h (d, u) (by simp) e.symm
    have ih' := ih fun c hc => h c (by simp [hc])
    by_cases hlt : a < d
    · simp [Memory.enter, Memory.byteAt, hlt]
    · simp [Memory.enter, Memory.byteAt, hlt, hd, ih']

theorem Memory.byteAt_enter_ne (m : Memory) {a b : Nat} (v : Byte) (h : b ≠ a) :
    (m.enter a v).byteAt b = m.byteAt b := by
  induction m with
  | nil => simp [Memory.enter, Memory.byteAt, h]
  | cons c m ih =>
    obtain ⟨d, u⟩ := c
    by_cases hlt : a < d
    · simp [Memory.enter, Memory.byteAt, hlt, h]
    · simp [Memory.enter, Memory.byteAt, hlt, ih]

theorem Memory.forget_mem {m : Memory} {a : Nat} {c : Host.Cell} : c ∈ m.forget a ↔ c ∈ m ∧ c.1 ≠ a := by
  induction m with
  | nil => simp [Memory.forget]
  | cons d m ih =>
    obtain ⟨d, u⟩ := d
    by_cases hd : d = a
    · simp only [Memory.forget, hd, if_true, ih, List.mem_cons]
      constructor
      · rintro ⟨h1, h2⟩; exact ⟨.inr h1, h2⟩
      · rintro ⟨h1 | h1, h2⟩
        · exact absurd (by rw [h1]) h2
        · exact ⟨h1, h2⟩
    · simp only [Memory.forget, hd, if_false, ih, List.mem_cons]
      constructor
      · rintro (h | ⟨h1, h2⟩)
        · exact ⟨.inl h, by rw [h]; exact hd⟩
        · exact ⟨.inr h1, h2⟩
      · rintro ⟨h1 | h1, h2⟩
        · exact .inl h1
        · exact .inr ⟨h1, h2⟩

theorem Memory.mem_enter {m : Memory} {a : Nat} {v : Byte} {c : Host.Cell} :
    c ∈ m.enter a v ↔ c = (a, v) ∨ c ∈ m := by
  induction m with
  | nil => simp [Memory.enter]
  | cons d m ih =>
    obtain ⟨d, u⟩ := d
    by_cases hlt : a < d
    · simp [Memory.enter, hlt]
    · simp only [Memory.enter, hlt, if_false, List.mem_cons, ih]
      tauto

/-- A write of one byte, said once: the address holds the byte, every other address reads as before. It holds of every
list, canonical or not. -/
theorem Memory.byteAt_store (m : Memory) (a b : Nat) (v : Byte) :
    (m.store a v).byteAt b = if b = a then v else m.byteAt b := by
  by_cases hb : b = a
  · subst hb
    by_cases hv : v = Memory.initialByte b
    · simp [Memory.store, hv, Memory.byteAt_forget_same]
    · simp only [Memory.store, hv, if_false, if_true]
      exact Memory.byteAt_enter_same _ _ _ fun c hc => (Memory.forget_mem.1 hc).2
  · by_cases hv : v = Memory.initialByte a
    · simp [Memory.store, hv, hb, Memory.byteAt_forget_ne]
    · simp [Memory.store, hv, hb, Memory.byteAt_enter_ne, Memory.byteAt_forget_ne]

/-! ### The canonical form -/

theorem Memory.forget_sublist (m : Memory) (a : Nat) : (m.forget a).Sublist m := by
  induction m with
  | nil => exact .slnil
  | cons c m ih =>
    obtain ⟨d, u⟩ := c
    by_cases hd : d = a
    · simpa [Memory.forget, hd] using ih.cons _
    · simpa [Memory.forget, hd] using ih.cons_cons (d, u)

theorem Memory.pairwise_enter {m : Memory} {a : Nat} {v : Byte} (hm : m.Pairwise fun c d => c.1 < d.1)
    (ha : ∀ c ∈ m, c.1 ≠ a) : (m.enter a v).Pairwise fun c d => c.1 < d.1 := by
  induction m with
  | nil => simp [Memory.enter]
  | cons d m ih =>
    obtain ⟨d, u⟩ := d
    rw [List.pairwise_cons] at hm
    by_cases hlt : a < d
    · simp only [Memory.enter, hlt, if_true, List.pairwise_cons]
      refine ⟨?_, hm⟩
      intro c hc
      rcases List.mem_cons.1 hc with rfl | hc
      · exact hlt
      · exact Nat.lt_trans hlt (hm.1 c hc)
    · have hda : d < a := by have := ha (d, u) (by simp); simp at this; omega
      simp only [Memory.enter, hlt, if_false, List.pairwise_cons]
      refine ⟨?_, ih hm.2 fun c hc => ha c (by simp [hc])⟩
      intro c hc
      rcases Memory.mem_enter.1 hc with rfl | hc
      · exact hda
      · exact hm.1 c hc

/-- A write inside the address space keeps the canonical form. -/
theorem Memory.wf_store {m : Memory} (h : m.wf) {a : Nat} (ha : a ≤ Config.addrMax) (v : Byte) : (m.store a v).wf := by
  have hsub := Memory.forget_sublist m a
  have hp : (m.forget a).Pairwise fun c d => c.1 < d.1 := h.1.sublist hsub
  by_cases hv : v = Memory.initialByte a
  · simp only [Memory.store, hv, if_true]
    exact ⟨hp, fun c hc => h.2 c (hsub.subset hc)⟩
  · simp only [Memory.store, hv, if_false]
    refine ⟨Memory.pairwise_enter hp fun c hc => (Memory.forget_mem.1 hc).2, fun c hc => ?_⟩
    rcases Memory.mem_enter.1 hc with rfl | hc
    · exact ⟨ha, hv⟩
    · exact h.2 c (hsub.subset hc)

/-! ### Several bytes -/

/-- Storing bytes from `base`, said once: the stored addresses hold the bytes in order, every other address reads as
before. -/
theorem Memory.byteAt_storeBytes (m : Memory) (base a : Nat) (bs : List Byte) :
    (m.storeBytes base bs).byteAt a =
      if h : base ≤ a ∧ a < base + bs.length then bs[a - base]'(by omega) else m.byteAt a := by
  induction bs generalizing m base with
  | nil => simp only [Memory.storeBytes, List.length_nil]; rw [dif_neg (by omega)]
  | cons b bs ih =>
    rw [Memory.storeBytes, ih, Memory.byteAt_store]
    simp only [List.length_cons]
    by_cases h1 : base + 1 ≤ a ∧ a < base + 1 + bs.length
    · rw [dif_pos h1, dif_pos (by omega)]
      have : a - base = (a - (base + 1)) + 1 := by omega
      simp [this]
    · rw [dif_neg h1]
      by_cases h2 : a = base
      · subst h2; simp
      · rw [if_neg h2, dif_neg (by omega)]

theorem Memory.byteAt_storeBytes_outside (m : Memory) {base a : Nat} (bs : List Byte)
    (h : a < base ∨ base + bs.length ≤ a) : (m.storeBytes base bs).byteAt a = m.byteAt a := by
  rw [Memory.byteAt_storeBytes, dif_neg (by omega)]

theorem Memory.byteAt_storeBytes_inside (m : Memory) (base : Nat) (bs : List Byte) (k : Nat) (h : k < bs.length) :
    (m.storeBytes base bs).byteAt (base + k) = bs[k] := by
  rw [Memory.byteAt_storeBytes, dif_pos (by omega)]
  simp

theorem Memory.wf_storeBytes {m : Memory} (h : m.wf) (base : Nat) (bs : List Byte)
    (hb : bs = [] ∨ base + (bs.length - 1) ≤ Config.addrMax) : (m.storeBytes base bs).wf := by
  induction bs generalizing m base with
  | nil => exact h
  | cons b bs ih =>
    have hlen : base + bs.length ≤ Config.addrMax := by
      rcases hb with hb | hb
      · cases hb
      · simpa using hb
    refine ih (Memory.wf_store h (by omega) b) (base + 1) ?_
    cases bs with
    | nil => exact .inl rfl
    | cons c cs => right; simp only [List.length_cons] at hlen ⊢; omega

/-! ### The bounds check and what goes through it -/

/-- The check passes exactly when the access touches no byte or ends inside the space (R54). -/
theorem checkSpan_ok_iff {base len : Nat} : checkSpan base len = .ok () ↔ len = 0 ∨ base + (len - 1) ≤ 0xFFF := by
  unfold checkSpan
  split
  · next h => constructor
              · intro h'; cases h'
              · intro h'; exfalso; simp only [Config.addrMax] at h; omega
  · next h => constructor
              · intro _; simp only [Config.addrMax] at h; omega
              · intro _; rfl

/-- The check fails exactly when it touches a byte above `0xFFF`, with the payload of R52. -/
theorem checkSpan_error_iff {base len : Nat} {e : Fault} :
    checkSpan base len = .error e ↔ (0 < len ∧ 0xFFF < base + (len - 1)) ∧ e = .outOfBounds (max base 0x1000) := by
  unfold checkSpan
  split
  · next h => simp only [Except.error.injEq, Config.addrMax] at h ⊢
              constructor
              · intro h'; exact ⟨h, h'.symm⟩
              · intro h'; exact h'.2.symm
  · next h => constructor
              · intro h'; cases h'
              · intro h'; exact absurd h'.1 h

theorem checkSpan_ok {base len : Nat} (h : len = 0 ∨ base + (len - 1) ≤ 0xFFF) : checkSpan base len = .ok () :=
  checkSpan_ok_iff.2 h

theorem checkSpan_error {base len : Nat} (h : 0 < len) (h' : 0xFFF < base + (len - 1)) :
    checkSpan base len = .error (.outOfBounds (max base 0x1000)) :=
  checkSpan_error_iff.2 ⟨⟨h, h'⟩, rfl⟩

/-- A checked read, said once (R52, R126). -/
theorem readSpan_ok {m : Memory} {base len : Nat} (h : len = 0 ∨ base + (len - 1) ≤ 0xFFF) :
    readSpan m base len = .ok ((List.range len).map fun r => m.byteAt (base + r)) := by
  simp [readSpan, checkSpan_ok h]

theorem readSpan_error {m : Memory} {base len : Nat} (h : 0 < len) (h' : 0xFFF < base + (len - 1)) :
    readSpan m base len = .error (.outOfBounds (max base 0x1000)) := by
  simp [readSpan, checkSpan_error h h']

/-- A checked write, said once (R53, R68, R155). -/
theorem writeSpan_ok {m : Memory} {base : Nat} {bs : List Byte} (h : bs.length = 0 ∨ base + (bs.length - 1) ≤ 0xFFF) :
    writeSpan m base bs = .ok (m.storeBytes base bs) := by
  simp [writeSpan, checkSpan_ok h]

theorem writeSpan_error {m : Memory} {base : Nat} {bs : List Byte} (h : 0 < bs.length)
    (h' : 0xFFF < base + (bs.length - 1)) : writeSpan m base bs = .error (.outOfBounds (max base 0x1000)) := by
  simp [writeSpan, checkSpan_error h h']

/-- What a checked write can answer. -/
theorem writeSpan_cases (m : Memory) (base : Nat) (bs : List Byte) :
    ((bs.length = 0 ∨ base + (bs.length - 1) ≤ 0xFFF) ∧ writeSpan m base bs = .ok (m.storeBytes base bs)) ∨
    ((0 < bs.length ∧ 0xFFF < base + (bs.length - 1)) ∧
      writeSpan m base bs = .error (.outOfBounds (max base 0x1000))) := by
  by_cases h : bs.length = 0 ∨ base + (bs.length - 1) ≤ 0xFFF
  · exact .inl ⟨h, writeSpan_ok h⟩
  · exact .inr ⟨by omega, writeSpan_error (by omega) (by omega)⟩

/-- Every checked write that succeeds keeps the canonical form. -/
theorem writeSpan_wf {m m' : Memory} {base : Nat} {bs : List Byte} (hm : m.wf) (h : writeSpan m base bs = .ok m') :
    m'.wf := by
  rcases writeSpan_cases m base bs with ⟨hb, h'⟩ | ⟨_, h'⟩
  · rw [h'] at h
    cases h
    exact Memory.wf_storeBytes hm base bs (hb.imp (fun e => List.eq_nil_of_length_eq_zero e) (fun e => e))
  · rw [h'] at h; cases h

theorem memRead8_ok {m : Memory} {a : Nat} (h : a ≤ 0xFFF) : memRead8 m a = .ok (m.byteAt a) := by
  simp [memRead8, checkSpan_ok (base := a) (len := 1) (by omega)]

theorem memRead16_ok {m : Memory} {a : Nat} (h : a ≤ 0xFFE) :
    memRead16 m a = .ok (m.byteAt a ++ m.byteAt (a + 1)) := by
  simp [memRead16, checkSpan_ok (base := a) (len := 2) (by omega)]

/-- The three digits are three bytes (R155). -/
@[simp] theorem length_decimalDigits (v : Byte) : (decimalDigits v).length = 3 := rfl

/-- Reset's memory is in canonical form. -/
theorem Memory.wf_nil : Memory.wf [] := ⟨.nil, fun _ h => absurd h (by simp)⟩

end Sys2Proof.Machine
end

