-- ==== Sys2Proof/Laws/State.lean ====
section
/-! SUPPORT. The state's small lemmas: every field of every update, and reading a general register after each
update; before them, how the parameters of Config.lean fit together. -/

namespace Sys2Proof

/-! ### The parameters -/

/-- The parameters of R6 agree: `ADDR_MAX` and the end of the longest image with `MEM_SIZE`, the valid bits of `I` with the
addresses, the instruction's bytes with its bits, `SPLEN` with `STACK_DEPTH`. -/
theorem Config.addrMax_succ : Config.addrMax + 1 = Config.memSize := rfl
theorem Config.progBase_add_progMaxLen : Config.progBase + Config.progMaxLen = Config.memSize := rfl
theorem Config.two_pow_ilenValid : 2 ^ Config.ilenValid = Config.memSize := rfl
theorem Config.instrBytes_eq : Config.instrBytes = Config.ilenInstr / 8 := rfl
theorem Config.stackDepth_lt_two_pow_splen : Config.stackDepth < 2 ^ Config.splen := by decide

end Sys2Proof

namespace Sys2Proof.Machine

/-! ### The range of `SP` -/

/-- `SP` is at most `STACK_DEPTH` (R28). -/
theorem State.sp_le (s : State) : s.sp.val ≤ 16 := Nat.le_of_lt_succ s.sp.isLt

/-! ### `State.writeV` -/

@[simp] theorem State.writeV_v (s : State) (k : Reg) (b : Byte) : (s.writeV k b).v = s.v.set k.toNat b k.isLt := rfl
@[simp] theorem State.writeV_i (s : State) (k : Reg) (b : Byte) : (s.writeV k b).i = s.i := rfl
@[simp] theorem State.writeV_pc (s : State) (k : Reg) (b : Byte) : (s.writeV k b).pc = s.pc := rfl
@[simp] theorem State.writeV_dt (s : State) (k : Reg) (b : Byte) : (s.writeV k b).dt = s.dt := rfl
@[simp] theorem State.writeV_st (s : State) (k : Reg) (b : Byte) : (s.writeV k b).st = s.st := rfl
@[simp] theorem State.writeV_sp (s : State) (k : Reg) (b : Byte) : (s.writeV k b).sp = s.sp := rfl
@[simp] theorem State.writeV_stack (s : State) (k : Reg) (b : Byte) : (s.writeV k b).stack = s.stack := rfl
@[simp] theorem State.writeV_mem (s : State) (k : Reg) (b : Byte) : (s.writeV k b).mem = s.mem := rfl
@[simp] theorem State.writeV_fb (s : State) (k : Reg) (b : Byte) : (s.writeV k b).fb = s.fb := rfl
@[simp] theorem State.writeV_keys (s : State) (k : Reg) (b : Byte) : (s.writeV k b).keys = s.keys := rfl
@[simp] theorem State.writeV_halt (s : State) (k : Reg) (b : Byte) : (s.writeV k b).halt = s.halt := rfl

/-! ### `State.setI` -/

@[simp] theorem State.setI_v (s : State) (a : Word) : (s.setI a).v = s.v := rfl
@[simp] theorem State.setI_i (s : State) (a : Word) : (s.setI a).i = a := rfl
@[simp] theorem State.setI_pc (s : State) (a : Word) : (s.setI a).pc = s.pc := rfl
@[simp] theorem State.setI_dt (s : State) (a : Word) : (s.setI a).dt = s.dt := rfl
@[simp] theorem State.setI_st (s : State) (a : Word) : (s.setI a).st = s.st := rfl
@[simp] theorem State.setI_sp (s : State) (a : Word) : (s.setI a).sp = s.sp := rfl
@[simp] theorem State.setI_stack (s : State) (a : Word) : (s.setI a).stack = s.stack := rfl
@[simp] theorem State.setI_mem (s : State) (a : Word) : (s.setI a).mem = s.mem := rfl
@[simp] theorem State.setI_fb (s : State) (a : Word) : (s.setI a).fb = s.fb := rfl
@[simp] theorem State.setI_keys (s : State) (a : Word) : (s.setI a).keys = s.keys := rfl
@[simp] theorem State.setI_halt (s : State) (a : Word) : (s.setI a).halt = s.halt := rfl
@[simp] theorem State.readV_setI (s : State) (a : Word) (j : Reg) : (s.setI a).readV j = s.readV j := rfl

/-! ### `State.setPc` -/

@[simp] theorem State.setPc_v (s : State) (a : Word) : (s.setPc a).v = s.v := rfl
@[simp] theorem State.setPc_i (s : State) (a : Word) : (s.setPc a).i = s.i := rfl
@[simp] theorem State.setPc_pc (s : State) (a : Word) : (s.setPc a).pc = a := rfl
@[simp] theorem State.setPc_dt (s : State) (a : Word) : (s.setPc a).dt = s.dt := rfl
@[simp] theorem State.setPc_st (s : State) (a : Word) : (s.setPc a).st = s.st := rfl
@[simp] theorem State.setPc_sp (s : State) (a : Word) : (s.setPc a).sp = s.sp := rfl
@[simp] theorem State.setPc_stack (s : State) (a : Word) : (s.setPc a).stack = s.stack := rfl
@[simp] theorem State.setPc_mem (s : State) (a : Word) : (s.setPc a).mem = s.mem := rfl
@[simp] theorem State.setPc_fb (s : State) (a : Word) : (s.setPc a).fb = s.fb := rfl
@[simp] theorem State.setPc_keys (s : State) (a : Word) : (s.setPc a).keys = s.keys := rfl
@[simp] theorem State.setPc_halt (s : State) (a : Word) : (s.setPc a).halt = s.halt := rfl
@[simp] theorem State.readV_setPc (s : State) (a : Word) (j : Reg) : (s.setPc a).readV j = s.readV j := rfl

/-! ### `State.setMem` -/

@[simp] theorem State.setMem_v (s : State) (m : Memory) : (s.setMem m).v = s.v := rfl
@[simp] theorem State.setMem_i (s : State) (m : Memory) : (s.setMem m).i = s.i := rfl
@[simp] theorem State.setMem_pc (s : State) (m : Memory) : (s.setMem m).pc = s.pc := rfl
@[simp] theorem State.setMem_dt (s : State) (m : Memory) : (s.setMem m).dt = s.dt := rfl
@[simp] theorem State.setMem_st (s : State) (m : Memory) : (s.setMem m).st = s.st := rfl
@[simp] theorem State.setMem_sp (s : State) (m : Memory) : (s.setMem m).sp = s.sp := rfl
@[simp] theorem State.setMem_stack (s : State) (m : Memory) : (s.setMem m).stack = s.stack := rfl
@[simp] theorem State.setMem_mem (s : State) (m : Memory) : (s.setMem m).mem = m := rfl
@[simp] theorem State.setMem_fb (s : State) (m : Memory) : (s.setMem m).fb = s.fb := rfl
@[simp] theorem State.setMem_keys (s : State) (m : Memory) : (s.setMem m).keys = s.keys := rfl
@[simp] theorem State.setMem_halt (s : State) (m : Memory) : (s.setMem m).halt = s.halt := rfl
@[simp] theorem State.readV_setMem (s : State) (m : Memory) (j : Reg) : (s.setMem m).readV j = s.readV j := rfl

/-! ### `State.setFb` -/

@[simp] theorem State.setFb_v (s : State) (f : Frame) : (s.setFb f).v = s.v := rfl
@[simp] theorem State.setFb_i (s : State) (f : Frame) : (s.setFb f).i = s.i := rfl
@[simp] theorem State.setFb_pc (s : State) (f : Frame) : (s.setFb f).pc = s.pc := rfl
@[simp] theorem State.setFb_dt (s : State) (f : Frame) : (s.setFb f).dt = s.dt := rfl
@[simp] theorem State.setFb_st (s : State) (f : Frame) : (s.setFb f).st = s.st := rfl
@[simp] theorem State.setFb_sp (s : State) (f : Frame) : (s.setFb f).sp = s.sp := rfl
@[simp] theorem State.setFb_stack (s : State) (f : Frame) : (s.setFb f).stack = s.stack := rfl
@[simp] theorem State.setFb_mem (s : State) (f : Frame) : (s.setFb f).mem = s.mem := rfl
@[simp] theorem State.setFb_fb (s : State) (f : Frame) : (s.setFb f).fb = f := rfl
@[simp] theorem State.setFb_keys (s : State) (f : Frame) : (s.setFb f).keys = s.keys := rfl
@[simp] theorem State.setFb_halt (s : State) (f : Frame) : (s.setFb f).halt = s.halt := rfl
@[simp] theorem State.readV_setFb (s : State) (f : Frame) (j : Reg) : (s.setFb f).readV j = s.readV j := rfl

/-! ### `State.advance` -/

@[simp] theorem State.advance_v (s : State) : (s.advance).v = s.v := rfl
@[simp] theorem State.advance_i (s : State) : (s.advance).i = s.i := rfl
@[simp] theorem State.advance_pc (s : State) : (s.advance).pc = s.pc + 2 := rfl
@[simp] theorem State.advance_dt (s : State) : (s.advance).dt = s.dt := rfl
@[simp] theorem State.advance_st (s : State) : (s.advance).st = s.st := rfl
@[simp] theorem State.advance_sp (s : State) : (s.advance).sp = s.sp := rfl
@[simp] theorem State.advance_stack (s : State) : (s.advance).stack = s.stack := rfl
@[simp] theorem State.advance_mem (s : State) : (s.advance).mem = s.mem := rfl
@[simp] theorem State.advance_fb (s : State) : (s.advance).fb = s.fb := rfl
@[simp] theorem State.advance_keys (s : State) : (s.advance).keys = s.keys := rfl
@[simp] theorem State.advance_halt (s : State) : (s.advance).halt = s.halt := rfl
@[simp] theorem State.readV_advance (s : State) (j : Reg) : (s.advance).readV j = s.readV j := rfl

/-! ### `State.tick` -/

@[simp] theorem State.tick_v (s : State) : (s.tick).v = s.v := rfl
@[simp] theorem State.tick_i (s : State) : (s.tick).i = s.i := rfl
@[simp] theorem State.tick_pc (s : State) : (s.tick).pc = s.pc := rfl
@[simp] theorem State.tick_dt (s : State) : (s.tick).dt = tickTimer s.dt := rfl
@[simp] theorem State.tick_st (s : State) : (s.tick).st = tickTimer s.st := rfl
@[simp] theorem State.tick_sp (s : State) : (s.tick).sp = s.sp := rfl
@[simp] theorem State.tick_stack (s : State) : (s.tick).stack = s.stack := rfl
@[simp] theorem State.tick_mem (s : State) : (s.tick).mem = s.mem := rfl
@[simp] theorem State.tick_fb (s : State) : (s.tick).fb = s.fb := rfl
@[simp] theorem State.tick_keys (s : State) : (s.tick).keys = s.keys := rfl
@[simp] theorem State.tick_halt (s : State) : (s.tick).halt = s.halt := rfl
@[simp] theorem State.readV_tick (s : State) (j : Reg) : (s.tick).readV j = s.readV j := rfl

/-! ### `State.setKeys` -/

@[simp] theorem State.setKeys_v (s : State) (ks : Vector Bool 16) : (s.setKeys ks).v = s.v := rfl
@[simp] theorem State.setKeys_i (s : State) (ks : Vector Bool 16) : (s.setKeys ks).i = s.i := rfl
@[simp] theorem State.setKeys_pc (s : State) (ks : Vector Bool 16) : (s.setKeys ks).pc = s.pc := rfl
@[simp] theorem State.setKeys_dt (s : State) (ks : Vector Bool 16) : (s.setKeys ks).dt = s.dt := rfl
@[simp] theorem State.setKeys_st (s : State) (ks : Vector Bool 16) : (s.setKeys ks).st = s.st := rfl
@[simp] theorem State.setKeys_sp (s : State) (ks : Vector Bool 16) : (s.setKeys ks).sp = s.sp := rfl
@[simp] theorem State.setKeys_stack (s : State) (ks : Vector Bool 16) : (s.setKeys ks).stack = s.stack := rfl
@[simp] theorem State.setKeys_mem (s : State) (ks : Vector Bool 16) : (s.setKeys ks).mem = s.mem := rfl
@[simp] theorem State.setKeys_fb (s : State) (ks : Vector Bool 16) : (s.setKeys ks).fb = s.fb := rfl
@[simp] theorem State.setKeys_keys (s : State) (ks : Vector Bool 16) : (s.setKeys ks).keys = ks := rfl
@[simp] theorem State.setKeys_halt (s : State) (ks : Vector Bool 16) : (s.setKeys ks).halt = s.halt := rfl
@[simp] theorem State.readV_setKeys (s : State) (ks : Vector Bool 16) (j : Reg) : (s.setKeys ks).readV j = s.readV j := rfl

/-! ### `State.setHalt` -/

@[simp] theorem State.setHalt_v (s : State) (b : Bool) : (s.setHalt b).v = s.v := rfl
@[simp] theorem State.setHalt_i (s : State) (b : Bool) : (s.setHalt b).i = s.i := rfl
@[simp] theorem State.setHalt_pc (s : State) (b : Bool) : (s.setHalt b).pc = s.pc := rfl
@[simp] theorem State.setHalt_dt (s : State) (b : Bool) : (s.setHalt b).dt = s.dt := rfl
@[simp] theorem State.setHalt_st (s : State) (b : Bool) : (s.setHalt b).st = s.st := rfl
@[simp] theorem State.setHalt_sp (s : State) (b : Bool) : (s.setHalt b).sp = s.sp := rfl
@[simp] theorem State.setHalt_stack (s : State) (b : Bool) : (s.setHalt b).stack = s.stack := rfl
@[simp] theorem State.setHalt_mem (s : State) (b : Bool) : (s.setHalt b).mem = s.mem := rfl
@[simp] theorem State.setHalt_fb (s : State) (b : Bool) : (s.setHalt b).fb = s.fb := rfl
@[simp] theorem State.setHalt_keys (s : State) (b : Bool) : (s.setHalt b).keys = s.keys := rfl
@[simp] theorem State.setHalt_halt (s : State) (b : Bool) : (s.setHalt b).halt = b := rfl
@[simp] theorem State.readV_setHalt (s : State) (b : Bool) (j : Reg) : (s.setHalt b).readV j = s.readV j := rfl

/-! ### `V[k]` after a write of a general register, and the flag -/

@[simp] theorem State.readV_writeV_same (s : State) (k : Reg) (b : Byte) : (s.writeV k b).readV k = b := by
  simp [State.readV]

theorem State.readV_writeV_ne (s : State) {j k : Reg} (b : Byte) (h : j ≠ k) : (s.writeV k b).readV j = s.readV j := by
  have hne : k.toNat ≠ j.toNat := fun e => h (BitVec.eq_of_toNat_eq e.symm)
  simp [State.readV, Vector.getElem_set_ne, hne]

/-- A register write, said once: the named register holds the byte, every other is as before. -/
theorem State.readV_writeV (s : State) (j k : Reg) (b : Byte) :
    (s.writeV k b).readV j = if j = k then b else s.readV j := by
  split
  · next h => subst h; exact State.readV_writeV_same s j b
  · next h => exact State.readV_writeV_ne s b h

/-- The flag write is a write of `VF` (R22). -/
theorem State.setFlag_eq (s : State) (c : Bool) : s.setFlag c = s.writeV flagReg (flagByte c) := rfl

/-- Skip is the advance of `PC` (R188). -/
theorem State.skip_eq (s : State) : s.skip = s.advance := rfl

/-- Two states with the same register vector read the same. -/
theorem State.readV_congr {s t : State} (h : t.v = s.v) (k : Reg) : t.readV k = s.readV k := by
  simp [State.readV, h]

end Sys2Proof.Machine
end

