-- ==== Sys2Proof/Laws/Step.lean ====
section
/-! SUPPORT. What a step can do, said once: the `PC` check and the fetch, then the decoded instruction. -/

namespace Sys2Proof.Machine

/-- The `PC` check's three answers, in the order of R184. -/
theorem checkPC_cases (pc : Word) :
    (0xFFF ≤ pc.toNat ∧ checkPC true pc = .error (.outOfBounds (max pc.toNat 0x1000))) ∨
    ((pc.toNat ≤ 0xFFE ∧ (pc.toNat % 2 = 1 ∨ pc.toNat < 0x200)) ∧ checkPC true pc = .error (.invalidPC pc)) ∨
    (LegalPc pc ∧ checkPC true pc = .ok ()) := by
  by_cases h : pc.toNat ≤ 0xFFE
  · have hs : checkSpan pc.toNat 2 = .ok () := checkSpan_ok (by omega)
    by_cases hp : pcInvariant pc = true
    · refine .inr (.inr ⟨?_, by simp [checkPC, hs, hp]⟩)
      simp [pcInvariant, Config.reservedEnd] at hp
      exact ⟨hp.2, h, hp.1⟩
    · refine .inr (.inl ⟨⟨h, ?_⟩, by simp [checkPC, hs, hp]⟩)
      simp [pcInvariant, Config.reservedEnd] at hp
      omega
  · have hs : checkSpan pc.toNat 2 = .error (.outOfBounds (max pc.toNat 0x1000)) :=
      checkSpan_error (by omega) (by omega)
    exact .inl ⟨by omega, by simp [checkPC, hs]⟩

/-- The fetch at a legal `PC` reads the word there (R92). -/
theorem fetch_legal {s : State} (h : LegalPc s.pc) : fetchWith true s = .ok (wordAtPc s) := by
  rcases checkPC_cases s.pc with ⟨h', _⟩ | ⟨h', _⟩ | ⟨_, e⟩
  · have := h.2; omega
  · have := h.1; have := h.2; omega
  · simp only [fetchWith, e]
    exact memRead16_ok (by have := h.2; omega)

/-- What a step can do: fail the fetch bound, fail the `PC` invariant, or execute the word at a legal `PC`. -/
theorem step_cases (s : State) :
    (0xFFF ≤ s.pc.toNat ∧ step s = .fault (.outOfBounds (max s.pc.toNat 0x1000))) ∨
    ((s.pc.toNat ≤ 0xFFE ∧ (s.pc.toNat % 2 = 1 ∨ s.pc.toNat < 0x200)) ∧ step s = .fault (.invalidPC s.pc)) ∨
    (LegalPc s.pc ∧ step s = exec (decode (wordAtPc s)) s) := by
  rcases checkPC_cases s.pc with ⟨h, e⟩ | ⟨h, e⟩ | ⟨h, _⟩
  · exact .inl ⟨h, by simp [step, stepWith, Config.strictPC, fetchWith, e, raise]⟩
  · exact .inr (.inl ⟨h, by simp [step, stepWith, Config.strictPC, fetchWith, e, raise]⟩)
  · exact .inr (.inr ⟨h, by simp [step, stepWith, Config.strictPC, fetch_legal h]⟩)

/-- A step that answers a next state executed the word at a legal `PC`. -/
theorem step_next {s t : State} (h : step s = .next t) :
    LegalPc s.pc ∧ exec (decode (wordAtPc s)) s = .next t := by
  rcases step_cases s with ⟨_, e⟩ | ⟨_, e⟩ | ⟨hp, e⟩ <;> rw [e] at h
  · cases h
  · cases h
  · exact ⟨hp, h⟩

/-- A step at a legal `PC`. -/
theorem step_legal {s : State} (h : LegalPc s.pc) : step s = exec (decode (wordAtPc s)) s := by
  rcases step_cases s with ⟨h', _⟩ | ⟨h', _⟩ | ⟨_, e⟩
  · have := h.2; omega
  · have := h.1; have := h.2; omega
  · exact e

/-- At a legal `PC` the advance does not wrap (R27). -/
theorem advance_toNat {s : State} (h : LegalPc s.pc) : (s.pc + 2).toNat = s.pc.toNat + 2 := by
  have := h.2
  rw [BitVec.toNat_add]
  show (s.pc.toNat + 2) % 65536 = _
  omega

/-- The host's run of one more step, where the step answers a next state. -/
theorem core_run_next {s t : State} (n : Nat) (h : step s = .next t) :
    Sys2Proof.core.run (n + 1) s = Sys2Proof.core.run n t := by
  have : Sys2Proof.core.step s = .next t := h
  simp [Host.Core.run, this]

/-- The host's run ends at the first error. -/
theorem core_run_fault {s : State} {e : Fault} (n : Nat) (h : step s = .fault e) :
    Sys2Proof.core.run (n + 1) s = .fault e := by
  have : Sys2Proof.core.step s = .fault e := h
  simp [Host.Core.run, this]

end Sys2Proof.Machine
end

