-- ==== Sys2Proof/Laws/Meanings.lean ====
section
/-! SUPPORT. What each meaning can answer, said once, and the cases of `exec`. -/

namespace Sys2Proof.Machine

/-- Push, said once (R140). -/
theorem push_cases (a : Word) (s : State) :
    (∃ h : s.sp.val < 16, push a s =
      .ok { s with stack := s.stack.set s.sp.val a h, sp := ⟨s.sp.val + 1, Nat.succ_lt_succ h⟩ }) ∨
    (s.sp.val = 16 ∧ push a s = .error .stackOverflow) := by
  by_cases h : s.sp.val < 16
  · exact .inl ⟨h, by simp [push, h]⟩
  · exact .inr ⟨by have := s.sp_le; omega, by simp [push, h]⟩

/-- CALL (R142). -/
theorem execCallNnn_cases (nnn : Addr12) (s : State) :
    (∃ h : s.sp.val < 16, execCallNnn nnn s = .next { s with
      stack := s.stack.set s.sp.val s.pc h, sp := ⟨s.sp.val + 1, Nat.succ_lt_succ h⟩, pc := zext16 nnn }) ∨
    (s.sp.val = 16 ∧ execCallNnn nnn s = .fault .stackOverflow) := by
  rcases push_cases s.pc s with ⟨h, e⟩ | ⟨h, e⟩
  · exact .inl ⟨h, by simp [execCallNnn, e, State.setPc]⟩
  · exact .inr ⟨h, by simp [execCallNnn, e, raise]⟩

/-- DRW (R126, R127). -/
theorem execDrwVxVyN_cases (x y : Reg) (n : Nibble) (s : State) :
    ((n.toNat = 0 ∨ s.i.toNat + (n.toNat - 1) ≤ 0xFFF) ∧ execDrwVxVyN x y n s =
      .next ((s.setFb (draw s.fb (s.readV x) (s.readV y) (spriteAtI s n)).1).setFlag
        (draw s.fb (s.readV x) (s.readV y) (spriteAtI s n)).2).advance) ∨
    ((0 < n.toNat ∧ 0xFFF < s.i.toNat + (n.toNat - 1)) ∧
      execDrwVxVyN x y n s = .fault (.outOfBounds (max s.i.toNat 0x1000))) := by
  by_cases h : n.toNat = 0 ∨ s.i.toNat + (n.toNat - 1) ≤ 0xFFF
  · refine .inl ⟨h, ?_⟩
    have : readSprite s n = .ok (spriteAtI s n) := readSpan_ok h
    simp [execDrwVxVyN, this]
  · refine .inr ⟨by omega, ?_⟩
    have : readSprite s n = .error (.outOfBounds (max s.i.toNat 0x1000)) :=
      readSpan_error (base := s.i.toNat) (by omega) (by omega)
    simp [execDrwVxVyN, this, raise]

/-- LD B (R155). -/
theorem execLdBVx_cases (x : Reg) (s : State) :
    (s.i.toNat ≤ 0xFFD ∧ execLdBVx x s =
      .next (s.setMem (s.mem.storeBytes (effectiveAddress s 0) (decimalDigits (s.readV x)))).advance) ∨
    (0xFFE ≤ s.i.toNat ∧ execLdBVx x s = .fault (.outOfBounds (max s.i.toNat 0x1000))) := by
  rcases writeSpan_cases s.mem (effectiveAddress s 0) (decimalDigits (s.readV x)) with ⟨h, e⟩ | ⟨h, e⟩
  · refine .inl ⟨?_, by simp [execLdBVx, e]⟩
    simp [effectiveAddress] at h; omega
  · refine .inr ⟨?_, by simp only [execLdBVx, e]; rfl⟩
    simp [effectiveAddress] at h; omega

/-- Load, said once (R68). An image that fits is copied as `writeSpan` copies. -/
theorem loadImage_cases (image : List Byte) (s : State) :
    (image.length ≤ 0xE00 ∧ loadImage image s = .ok (s.setMem (s.mem.storeBytes 0x200 image)) ∧
      writeSpan s.mem 0x200 image = .ok (s.mem.storeBytes 0x200 image)) ∨
    (0xE00 < image.length ∧ loadImage image s = .error (.outOfBounds 0x1000) ∧
      writeSpan s.mem 0x200 image = .error (.outOfBounds 0x1000)) := by
  by_cases h : 0xE00 < image.length
  · exact .inr ⟨h, by simp [loadImage, h], by
      rcases writeSpan_cases s.mem 0x200 image with ⟨hb, e⟩ | ⟨hb, e⟩
      · omega
      · exact e⟩
  · refine .inl ⟨by omega, by simp [loadImage, h], ?_⟩
    rcases writeSpan_cases s.mem 0x200 image with ⟨hb, e⟩ | ⟨hb, e⟩
    · exact e
    · omega

/-- The sprite has as many bytes as the instruction says, so at most 15 (R125). -/
@[simp] theorem length_spriteAtI (s : State) (n : Nibble) : (spriteAtI s n).length = n.toNat := by
  simp [spriteAtI]

theorem length_spriteAtI_le (s : State) (n : Nibble) : (spriteAtI s n).length ≤ 32 := by
  have := n.isLt
  rw [length_spriteAtI]; omega

/-- No instruction's meaning is a refusal: every answer is a next state or an error (R90). -/
theorem exec_total (i : Instr) (s : State) : (∃ t, exec i s = .next t) ∨ ∃ e, exec i s = .fault e := by
  cases i with
  | callNnn nnn =>
    rcases execCallNnn_cases nnn s with ⟨_, e⟩ | ⟨_, e⟩
    · exact .inl ⟨_, e⟩
    · exact .inr ⟨_, e⟩
  | ldVxNn x nn => exact .inl ⟨_, rfl⟩
  | ldINnn nnn => exact .inl ⟨_, rfl⟩
  | drwVxVyN x y n =>
    rcases execDrwVxVyN_cases x y n s with ⟨_, e⟩ | ⟨_, e⟩
    · exact .inl ⟨_, e⟩
    · exact .inr ⟨_, e⟩
  | ldBVx x =>
    rcases execLdBVx_cases x s with ⟨_, e⟩ | ⟨_, e⟩
    · exact .inl ⟨_, e⟩
    · exact .inr ⟨_, e⟩
  | unsupported w => exact .inr ⟨_, rfl⟩

/-- What an instruction has done when it answers a next state, instruction by instruction. -/
theorem exec_next {i : Instr} {s t : State} (h : exec i s = .next t) :
    (∃ nnn, ∃ hsp : s.sp.val < 16, i = .callNnn nnn ∧ t = { s with
      stack := s.stack.set s.sp.val s.pc hsp, sp := ⟨s.sp.val + 1, Nat.succ_lt_succ hsp⟩, pc := zext16 nnn }) ∨
    (∃ x nn, i = .ldVxNn x nn ∧ t = (s.writeV x nn).advance) ∨
    (∃ nnn, i = .ldINnn nnn ∧ t = (s.setI (zext16 nnn)).advance) ∨
    (∃ x y n, i = .drwVxVyN x y n ∧ (n.toNat = 0 ∨ s.i.toNat + (n.toNat - 1) ≤ 0xFFF) ∧
      t = ((s.setFb (draw s.fb (s.readV x) (s.readV y) (spriteAtI s n)).1).setFlag
        (draw s.fb (s.readV x) (s.readV y) (spriteAtI s n)).2).advance) ∨
    (∃ x, i = .ldBVx x ∧ s.i.toNat ≤ 0xFFD ∧
      t = (s.setMem (s.mem.storeBytes (effectiveAddress s 0) (decimalDigits (s.readV x)))).advance) := by
  cases i with
  | callNnn nnn =>
    rcases execCallNnn_cases nnn s with ⟨hsp, e⟩ | ⟨_, e⟩
    · exact .inl ⟨nnn, hsp, rfl, by cases e.symm.trans h; rfl⟩
    · cases e.symm.trans h
  | ldVxNn x nn => exact .inr (.inl ⟨x, nn, rfl, by cases h; rfl⟩)
  | ldINnn nnn => exact .inr (.inr (.inl ⟨nnn, rfl, by cases h; rfl⟩))
  | drwVxVyN x y n =>
    rcases execDrwVxVyN_cases x y n s with ⟨hb, e⟩ | ⟨_, e⟩
    · exact .inr (.inr (.inr (.inl ⟨x, y, n, rfl, hb, by cases e.symm.trans h; rfl⟩)))
    · cases e.symm.trans h
  | ldBVx x =>
    rcases execLdBVx_cases x s with ⟨hb, e⟩ | ⟨_, e⟩
    · exact .inr (.inr (.inr (.inr ⟨x, rfl, hb, by cases e.symm.trans h; rfl⟩)))
    · cases e.symm.trans h
  | unsupported w => cases h

/-- Why an instruction has raised an error, instruction by instruction (60_exceptions.md R183). -/
theorem exec_fault {i : Instr} {s : State} {e : Fault} (h : exec i s = .fault e) :
    (∃ nnn, i = .callNnn nnn ∧ s.sp.val = 16 ∧ e = .stackOverflow) ∨
    (∃ x y n, i = .drwVxVyN x y n ∧ 0 < n.toNat ∧ 0xFFF < s.i.toNat + (n.toNat - 1) ∧
      e = .outOfBounds (max s.i.toNat 0x1000)) ∨
    (∃ x, i = .ldBVx x ∧ 0xFFE ≤ s.i.toNat ∧ e = .outOfBounds (max s.i.toNat 0x1000)) ∨
    (∃ w, i = .unsupported w ∧ e = .unsupportedOpcode w) := by
  cases i with
  | callNnn nnn =>
    rcases execCallNnn_cases nnn s with ⟨_, q⟩ | ⟨hsp, q⟩
    · cases q.symm.trans h
    · exact .inl ⟨nnn, rfl, hsp, by cases q.symm.trans h; rfl⟩
  | ldVxNn x nn => cases h
  | ldINnn nnn => cases h
  | drwVxVyN x y n =>
    rcases execDrwVxVyN_cases x y n s with ⟨_, q⟩ | ⟨hb, q⟩
    · cases q.symm.trans h
    · exact .inr (.inl ⟨x, y, n, rfl, hb.1, hb.2, by cases q.symm.trans h; rfl⟩)
  | ldBVx x =>
    rcases execLdBVx_cases x s with ⟨_, q⟩ | ⟨hb, q⟩
    · cases q.symm.trans h
    · exact .inr (.inr (.inl ⟨x, rfl, hb, by cases q.symm.trans h; rfl⟩))
  | unsupported w => exact .inr (.inr (.inr ⟨w, rfl, by cases h; rfl⟩))

end Sys2Proof.Machine
end

