-- ==== Sys2Proof/Laws/Operands.lean ====
section
/-! SUPPORT. The operand forms as numbers (30_encoding.md R73, 44_bcd_store.md R156). -/

namespace Sys2Proof.Machine

theorem zext16_toNat (nnn : Addr12) : (zext16 nnn).toNat = nnn.toNat := by
  have := nnn.isLt
  simp only [zext16, BitVec.toNat_setWidth]
  omega

theorem effectiveAddress_eq (s : State) (k : Nat) : effectiveAddress s k = s.i.toNat + k := rfl

/-- The three digits as numbers. -/
theorem decimalDigits_toNat (v : Byte) :
    (decimalDigits v).map BitVec.toNat = [v.toNat / 100, v.toNat / 10 % 10, v.toNat % 10] := by
  have := v.isLt
  simp only [decimalDigits, List.map_cons, List.map_nil, BitVec.toNat_ofNat, List.cons.injEq, and_true]
  omega

/-- Every digit is at most 9. -/
theorem decimalDigits_le_nine {v d : Byte} (h : d ∈ decimalDigits v) : d.toNat ≤ 9 := by
  have hm : d.toNat ∈ (decimalDigits v).map BitVec.toNat := List.mem_map_of_mem h
  have := v.isLt
  rw [decimalDigits_toNat] at hm
  simp only [List.mem_cons, List.not_mem_nil, or_false] at hm
  omega

end Sys2Proof.Machine
end

