-- ==== Sys2Proof/Laws/PerInstr.lean ====
section
/-! SUPPORT. Statements for all instructions as syntax, one lemma per constructor. -/

namespace Sys2Proof.Laws

/-- The table row of each instruction's mnemonic, by its place in `opcodeRows`; the fallback has none (R83). -/
def RowOf.row : Instr → Option OpcodeRow
  | .callNnn _ => opcodeRows[0]?
  | .ldVxNn _ _ => opcodeRows[1]?
  | .ldINnn _ => opcodeRows[2]?
  | .drwVxVyN _ _ _ => opcodeRows[3]?
  | .ldBVx _ => opcodeRows[4]?
  | .unsupported _ => none

/-- The encoder puts every well-formed instruction into the row of its own mnemonic, and the fallback into no row:
`w & mask = match` (30_encoding.md R83). -/
def RowOf.Statement (i : Instr) : Prop :=
  WellFormed i = true → match RowOf.row i with
    | some r => r.holds (encode i) = true
    | none => ∀ r ∈ opcodeRows, r.holds (encode i) = false

theorem and_top_nibble (op : BitVec 4) (rest : Addr12) : (op ++ rest) &&& 0xF000#16 = op ++ 0#12 := by
  have hop : op &&& 0xF#4 = op := by revert op; decide
  rw [show (0xF000#16 : Word) = 0xF#4 ++ 0#12 by decide, BitVec.and_append, hop, BitVec.and_zero]

theorem append_nibbles (a x y n : BitVec 4) : (a ++ x ++ y ++ n : BitVec 16) = a ++ (x ++ y ++ n : BitVec 12) := by
  ext i hi
  simp only [BitVec.getElem_append]
  split_ifs <;> first | rfl | omega

theorem RowOf.callNnn (nnn : Addr12) : RowOf.Statement (.callNnn nnn) := by
  intro _
  show ((0x2#4 ++ nnn) &&& 0xF000#16 == _) = true
  rw [and_top_nibble]; decide

theorem RowOf.ldVxNn (x : Reg) (nn : Byte) : RowOf.Statement (.ldVxNn x nn) := by
  intro _
  show ((0x6#4 ++ x ++ nn : BitVec 16) &&& 0xF000#16 == _) = true
  rw [show (0x6#4 ++ x ++ nn : BitVec 16) = 0x6#4 ++ (x ++ nn) from BitVec.append_assoc, and_top_nibble]; decide

theorem RowOf.ldINnn (nnn : Addr12) : RowOf.Statement (.ldINnn nnn) := by
  intro _
  show ((0xA#4 ++ nnn) &&& 0xF000#16 == _) = true
  rw [and_top_nibble]; decide

theorem RowOf.drwVxVyN (x y : Reg) (n : Nibble) : RowOf.Statement (.drwVxVyN x y n) := by
  intro _
  show ((0xD#4 ++ x ++ y ++ n : BitVec 16) &&& 0xF000#16 == _) = true
  rw [append_nibbles, and_top_nibble]; decide

theorem RowOf.ldBVx (x : Reg) : RowOf.Statement (.ldBVx x) := by
  intro _
  exact (by decide : ∀ k : Reg, (0xF#4 ++ k ++ 0x33#8) &&& 0xF0FF#16 == 0xF033#16) x

theorem RowOf.unsupported (w : Word) : RowOf.Statement (.unsupported w) := by
  intro h r hr
  simp only [WellFormed, supportedWord, Bool.not_eq_true', List.any_eq_false] at h
  exact Bool.eq_false_iff.2 (h r hr)

end Sys2Proof.Laws
end

