-- ==== Sys2Proof/Tests/Slice0.lean ====
section
/-! SUPPORT. Tests, each expected result taken from spec/ (the vector or rule is named), and for every statement with
hypotheses a witness that meets them all. -/

open Sys2Proof Sys2Proof.Machine

namespace Sys2Proof.Tests

/-! ### Helpers -/

/-- Reset, with `PC` at `pc` and the word stored there. -/
def atPc (pc w : Nat) : State := (State.reset.setPc (BitVec.ofNat 16 pc)).withFetchWord 16 w

/-- Reset, with the word at `0x200`. -/
def word (w : Nat) : State := State.reset.withFetchWord 16 w

/-- Store bytes. -/
def bytes (s : State) (a : Nat) (bs : List Byte) : State := s.setMem (s.mem.storeBytes a bs)

/-- The lit pixels as (row, column). -/
def lit (f : Frame) : List (Nat × Nat) :=
  (List.finRange 32).flatMap fun r => (List.finRange 64).filterMap fun c =>
    if f.pixel r c then some (r.val, c.val) else none

/-- The field of the state after one step, if the step answers a next state. -/
def after {α : Type} (s : State) (field : State → α) : Option α := (nextState (step s)).map field

/-- Reset with `SP` at `k`. -/
def depth (k : Fin 17) (s : State) : State := { s with sp := k }

/-! ### Well-formedness: the fallback may not carry an instruction's word (R83) -/

theorem test_wellformed_refuses_call_word : WellFormed (.unsupported 0x22A4) = false := by decide
theorem test_wellformed_refuses_ld_vx_word : WellFormed (.unsupported 0x637F) = false := by decide
theorem test_wellformed_refuses_ld_i_word : WellFormed (.unsupported 0xA2F0) = false := by decide
theorem test_wellformed_refuses_drw_word : WellFormed (.unsupported 0xD125) = false := by decide
theorem test_wellformed_refuses_ld_b_word : WellFormed (.unsupported 0xFA33) = false := by decide
theorem test_wellformed_accepts_fallback :
    WellFormed (.unsupported 0x0000) = true ∧ WellFormed (.unsupported 0xF032) = true := by decide

/-! ### Decoding: words written out from R72 and R82 -/

theorem test_decode_call : decode (0b0010#4 ++ 0x2A4#12) = .callNnn 0x2A4 := by decide
theorem test_decode_ld_vx : decode (0b0110#4 ++ 0x3#4 ++ 0x7F#8) = .ldVxNn 3 0x7F := by decide
theorem test_decode_ld_i : decode (0b1010#4 ++ 0x2F0#12) = .ldINnn 0x2F0 := by decide
theorem test_decode_drw : decode (0b1101#4 ++ 0x1#4 ++ 0x2#4 ++ 0x5#4) = .drwVxVyN 1 2 5 := by decide
theorem test_decode_ld_b : decode (0b1111#4 ++ 0xA#4 ++ 0b00110011#8) = .ldBVx 0xA := by decide

/-- V-U1 to V-U8: words that are not instructions. -/
theorem test_decode_fallback :
    ([0x0000, 0x00E0, 0x00EE, 0x1200, 0x3000, 0x4000, 0x5000, 0x7000, 0x8000, 0x9000, 0xB000, 0xC000, 0xE000, 0xF000,
      0xF032, 0xF034, 0xF003, 0xF030, 0xF0B3, 0xF037, 0xF007, 0xF015, 0xF055, 0xFFFF] : List Word).all
      (fun w => decode w == .unsupported w) = true := by decide

theorem test_decode_short : decodeBytes [0x63] = .error .tooFewBytes := by decide
theorem test_decode_leaves_rest : decodeBytes [0xA2, 0xF0, 0xD1] = .ok (.ldINnn 0x2F0, [0xD1]) := by decide
theorem test_table_word : decodeTableWord 16 0xD125 = some (.drwVxVyN 1 2 5) := by decide
theorem test_table_word_fallback : decodeTableWord 16 0 = some (.unsupported 0) := by decide
theorem test_encode_bytes : encodeBytes (.drwVxVyN 1 2 5) = [0xD1, 0x25] := by decide

/-! ### Fetch (V-X1, V-X3, V-X4, V-X6, V-X8, V-X9) -/

theorem test_fetch_last_word : after (atPc 0xFFE 0x6001) (fun t => (t.readV 0, t.pc)) = some (0x01, 0x1000) := by decide
theorem test_fetch_fff : faultOf (step (State.reset.setPc 0xFFF)) = some (.outOfBounds 0x1000) := by decide
theorem test_fetch_ffff : faultOf (step (State.reset.setPc 0xFFFF)) = some (.outOfBounds 0xFFFF) := by decide
theorem test_fetch_odd :
    faultOf (step (bytes (State.reset.setPc 0x301) 0x301 [0x60, 0x01])) = some (.invalidPC 0x301) := by decide
theorem test_fetch_reserved : faultOf (step (State.reset.setPc 0x1FE)) = some (.invalidPC 0x1FE) := by decide
theorem test_fetch_lenient_odd :
    (nextState (stepWith false (bytes (State.reset.setPc 0x301) 0x301 [0x60, 0x01]))).map
      (fun t => (t.readV 0, t.pc)) = some (0x01, 0x303) := by decide

/-! ### Load immediate (V-L3, V-L4, V-L6, V-L7) -/

theorem test_ld_vx : after ((word 0x6A2C).writeV 0xA 0x55) (fun t => (t.readV 0xA, t.pc)) = some (0x2C, 0x202) := by decide
theorem test_ld_vf : after ((word 0x6F7B).writeV 0xF 0x01) (fun t => (t.readV 0xF, t.readV 0xB)) = some (0x7B, 0) := by decide
theorem test_ld_i_top : after (word 0xAFFF) (fun t => (t.i, t.pc)) = some (0x0FFF, 0x202) := by decide
theorem test_ld_i_clears_upper_bits : after ((word 0xA2F0).setI 0xF123) (fun t => t.i) = some 0x02F0 := by decide

/-! ### Draw (V-D5, V-D13) -/

theorem test_drw_wraps_both_axes :
    after (bytes (((word 0xD012).setI 0x20E).writeV 0 62 |>.writeV 1 31) 0x20E [0xC1, 0x80])
      (fun t => (lit t.fb, t.readV 0xF, t.pc)) =
    some ([(0, 62), (31, 5), (31, 62), (31, 63)], 0x00, 0x202) := by decide

theorem test_drw_reads_old_vf :
    after (bytes (((word 0xDFF1).setI 0x300).writeV 0xF 5) 0x300 [0x80]) (fun t => (lit t.fb, t.readV 0xF)) =
    some ([(5, 5)], 0x00) := by decide

/-- V-D6: one pixel cleared, one set, still a collision. -/
theorem test_draw_collision :
    (fun d : Frame × Bool => (lit d.1, d.2)) (draw (Frame.clear.setPixel 0 0 true) 0 0 [0xC0]) =
    ([(0, 1)], true) := by decide

/-! ### Call (V-C1, V-C4) -/

theorem test_call :
    after (depth 1 (atPc 0x204 0x22A4)) (fun t => (t.stack[1], t.sp, t.pc)) = some (0x0204, 2, 0x02A4) := by decide
theorem test_call_overflow : faultOf (step (depth 16 (word 0x2300))) = some .stackOverflow := by decide

/-! ### Decimal store (the row for 199, V-B2) -/

theorem test_ld_b :
    after (((word 0xF033).setI 0x300).writeV 0 0xC7)
      (fun t => (t.mem.byteAt 0x300, t.mem.byteAt 0x301, t.mem.byteAt 0x302, t.pc)) =
    some (1, 9, 9, 0x202) := by decide
theorem test_ld_b_top : faultOf (step (((word 0xF233).setI 0xFFE).writeV 2 0x7B)) = some (.outOfBounds 0x1000) := by decide

/-! ### Unsupported (V-U1, V-U6) -/

theorem test_unsupported_from_reset : faultOf (step State.reset) = some (.unsupportedOpcode 0x0000) := by decide
theorem test_unsupported_f032 : faultOf (step (word 0xF032)) = some (.unsupportedOpcode 0xF032) := by decide

/-! ### Memory and font (S9, R53) -/

/-- `font_address(0xA) = 50`, and the glyph there under the default `FONT` (S9). -/
theorem test_font_glyph_a :
    readSpan State.reset.mem (fontAddress 0xA) 5 = .ok [0xF0, 0x90, 0xF0, 0x90, 0x90] := by decide
theorem test_font_has_80_bytes : Config.font.length = 80 := by decide
theorem test_store_back_is_reset :
    ((State.reset.mem.store 0x300 7).store 0x300 0 = []) ∧ (State.reset.mem.store 0 0xF0 = []) := by decide

/-! ### Host events (V-H1, V-H3, V-H6, V-H8, V-H7, R141) -/

theorem test_tick : ({ State.reset with dt := 3 }.tick.dt, State.reset.tick.dt) = (2, 0) := by decide
theorem test_load_length (image : List Byte) :
    (image.length = 3584 → (loadImage image State.reset).toBool = true) ∧
    (image.length = 3585 → loadImage image State.reset = .error (.outOfBounds 0x1000)) := by
  constructor <;> intro h <;> simp [loadImage, h, Except.toBool]
theorem test_load_then_run :
    (System.trace [.host (.load [0x60, 0xFF]), .host .startRun, .core, .core] System.initial).map
      (fun m => (m.core.readV 0, m.core.pc, m.phase)) =
    some (0xFF, 0x202, .faulted (.unsupportedOpcode 0)) := by decide
theorem test_halt_first :
    (System.trace [.host (.setHalt true), .host .startRun, .core] System.initial).map (fun m => (m.core.pc, m.phase)) =
    some (0x200, .halted) := by decide
theorem test_skip_after_fault :
    (System.trace [.host .startRun, .core, .host .skip] System.initial).map (fun m => m.core.pc) = some 0x202 := by decide
theorem test_skip_refused_when_idle : System.move (.host .skip) System.initial = none := by decide
theorem test_reset_refused_in_run : System.trace [.host .startRun, .host .reset] System.initial = none := by decide
theorem test_pop_mirrors_push :
    (match push 0x0204 State.reset with
      | .ok s => (match pop s with | .ok p => some p | .error _ => none)
      | .error _ => none).map (fun p : Word × State => (p.1, p.2.sp)) = some (0x0204, 0) := by decide
theorem test_register_interface :
    State.reset.regGet 16 = .error (.invalidRegister 16) ∧ State.reset.regGet 15 = .ok 0 := by decide

/-! ### The word placed for the host runs as the first instruction after reset -/

theorem test_placed_word_is_fetched :
    ([0x22A4, 0x637F, 0xA2F0, 0xD125, 0xFA33, 0x0000] : List Nat).all
      (fun w => match fetchWith true (word w) with | .ok u => u.toNat == w | .error _ => false) = true := by decide

/-! ### Witnesses: a state and operands that meet every hypothesis of a statement, at the ends of its ranges -/

/-- DecodeFollowsTheOpcodeMap: a word for each clause. -/
theorem witness_DecodeFollowsTheOpcodeMap :
    (0x2FFF#16).toNat / 4096 = 2 ∧ (0x6000#16).toNat / 4096 = 6 ∧ (0xAFFF#16).toNat / 4096 = 10 ∧
    (0xDFFF#16).toNat / 4096 = 13 ∧ ((0xFF33#16).toNat / 4096 = 15 ∧ (0xFF33#16).toNat % 256 = 0x33) ∧
    OutsideMap 0x0000 ∧ OutsideMap 0xEFFF ∧ OutsideMap 0xF032 ∧ ¬ OutsideMap 0xF033 := by decide

/-- DecodeOfEncodeIsIdentity: well-formed terms, the checked constructor among them. -/
theorem witness_DecodeOfEncodeIsIdentity :
    WellFormed (.unsupported 0xFFFF) = true ∧ WellFormed (.drwVxVyN 0xF 0xF 0xF) = true := by decide

/-- StepRunsTheDecodedInstruction, at both ends of the legal range. -/
theorem witness_StepRunsTheDecodedInstruction :
    (LegalPc (word 0x637F).pc ∧ (word 0x637F).mem.byteAt 0x200 = 0x63 ∧ (word 0x637F).mem.byteAt 0x201 = 0x7F ∧
      decodeBytes [0x63, 0x7F] = .ok (.ldVxNn 3 0x7F, [])) ∧
    (LegalPc (atPc 0xFFE 0x2FFE).pc ∧ (atPc 0xFFE 0x2FFE).mem.byteAt 0xFFE = 0x2F ∧
      (atPc 0xFFE 0x2FFE).mem.byteAt 0xFFF = 0xFE ∧ decodeBytes [0x2F, 0xFE] = .ok (.callNnn 0xFFE, [])) := by decide

/-- FetchFaultsInOrder: the bound at `0xFFF`; an odd and a low `PC` inside it; the clauses exclude each other. -/
theorem witness_FetchFaultsInOrder :
    (0xFFF ≤ (State.reset.setPc 0xFFF).pc.toNat) ∧
    ((State.reset.setPc 0xFFD).pc.toNat ≤ 0xFFE ∧ (State.reset.setPc 0xFFD).pc.toNat % 2 = 1) ∧
    ((State.reset.setPc 0x1FE).pc.toNat ≤ 0xFFE ∧ (State.reset.setPc 0x1FE).pc.toNat < 0x200) := by decide

/-- LenientStepFetchesAnywhere: the first and the last address. -/
theorem witness_LenientStepFetchesAnywhere :
    (State.reset.setPc 0).pc.toNat ≤ 0xFFE ∧ (State.reset.setPc 0xFFE).pc.toNat ≤ 0xFFE := by decide

/-- LoadByteImmediate, LoadIndexImmediate, CallPushesItsOwnAddress: the first and last words. -/
theorem witness_word_ranges :
    (0x6000 ≤ (0x6FFF#16).toNat ∧ (0x6FFF#16).toNat ≤ 0x6FFF) ∧ (0xA000 ≤ (0xA000#16).toNat ∧ (0xA000#16).toNat ≤ 0xAFFF) ∧
    (0x2000 ≤ (0x2FFF#16).toNat ∧ (0x2FFF#16).toNat ≤ 0x2FFF) := by decide

/-- DrawCompletes: no row with `I` beyond memory, and a sprite that ends at `0xFFF`. -/
theorem witness_DrawCompletes :
    ((0#4).toNat = 0 ∨ (State.reset.setI 0x1000).i.toNat + ((0#4).toNat - 1) ≤ 0xFFF) ∧
    ((2#4).toNat = 0 ∨ (State.reset.setI 0xFFE).i.toNat + ((2#4).toNat - 1) ≤ 0xFFF) := by decide

/-- DrawOutOfBounds: the first `I` that fails for three rows. -/
theorem witness_DrawOutOfBounds :
    0 < (3#4).toNat ∧ 0xFFF < (State.reset.setI 0xFFE).i.toNat + ((3#4).toNat - 1) := by decide

/-- DrawFlagMeansAPixelWentOff: a sprite of 15 rows and one of 32. -/
theorem witness_DrawFlagMeansAPixelWentOff :
    (List.replicate 15 (0xFF : Byte)).length ≤ 32 ∧ (List.replicate 32 (0xFF : Byte)).length ≤ 32 := by decide

/-- DrawTwiceRestoresTheDisplay: two registers other than `VF`, a sprite inside memory. -/
theorem witness_DrawTwiceRestoresTheDisplay :
    (0xE : Reg) ≠ 0xF ∧ (0x0 : Reg) ≠ 0xF ∧
    ((15#4).toNat = 0 ∨ (State.reset.setI 0xFF1).i.toNat + ((15#4).toNat - 1) ≤ 0xFFF) := by decide

/-- CallPushesItsOwnAddress: the last free slot, the full stack, and a running loop at a CALL with the stack full. -/
theorem witness_CallPushesItsOwnAddress :
    (depth 15 State.reset).sp.val < 16 ∧ (depth 16 State.reset).sp.val = 16 ∧
    LegalPc (depth 16 (word 0x2300)).pc ∧ decode (wordAtPc (depth 16 (word 0x2300))) = .callNnn 0x300 ∧
    (depth 16 (word 0x2300)).halt = false := by decide

/-- CallToAnIllegalTargetFaultsNext: a free slot, and targets at the ends of each clause. -/
theorem witness_CallToAnIllegalTargetFaultsNext :
    (depth 15 State.reset).sp.val < 16 ∧ (0xFFF#12).toNat = 0xFFF ∧
    ((0xFFD#12).toNat ≤ 0xFFE ∧ (0xFFD#12).toNat % 2 = 1) ∧ ((0x1FE#12).toNat ≤ 0xFFE ∧ (0x1FE#12).toNat < 0x200) := by
  decide

/-- BcdStoresThreeDigits and BcdDigitsAddUpToTheRegister: the last legal base. -/
theorem witness_BcdStoresThreeDigits :
    effectiveAddress (State.reset.setI 0xFFD) 2 ≤ 0xFFF ∧ (State.reset.setI 0xFFD).i.toNat ≤ 0xFFD := by decide

/-- BcdOutOfBounds: the first base that fails. -/
theorem witness_BcdOutOfBounds : 0xFFF < effectiveAddress (State.reset.setI 0xFFE) 2 := by decide

/-- UnsupportedWordChangesNothing and UnsupportedOpcodeExactly: the reset state in a run. -/
theorem witness_UnsupportedWordChangesNothing :
    LegalPc State.reset.pc ∧ OutsideMap (wordAtPc State.reset) ∧
    ({ System.initial with phase := .running } : System).phase = .running ∧ State.reset.halt = false := by decide

/-- PcAfterACompletedStep, StackOnlyGrows, WhereRegisterValuesComeFrom, StepKeepsTheInvariant: a completing step of each
kind, from states that meet the invariant. -/
theorem witness_completed_steps :
    ((nextState (step (word 0x2300))).isSome = true ∧ Inv (word 0x2300)) ∧
    ((nextState (step (word 0x6001))).isSome = true ∧ Inv (word 0x6001)) ∧
    ((nextState (step (word 0xD011))).isSome = true ∧ Inv (word 0xD011)) := by decide

/-- WhereRegisterValuesComeFrom: a step that changes a register, and one that changes `I`. -/
theorem witness_WhereRegisterValuesComeFrom :
    after (word 0x6001) (fun t => decide (t.readV 0 ≠ (word 0x6001).readV 0)) = some true ∧
    after (word 0xA001) (fun t => decide (t.i ≠ (word 0xA001).i)) = some true := by decide

/-- ChangedBytesAreDigits: a step that changes a byte. -/
theorem witness_ChangedBytesAreDigits :
    after (((word 0xF033).setI 0x300).writeV 0 0xFF)
      (fun t => decide (t.mem.byteAt 0x302 ≠ ((word 0xF033).setI 0x300).mem.byteAt 0x302)) = some true := by decide

/-- StoreIsSeenByTheNextFetch: the first and the last `PC`. -/
theorem witness_StoreIsSeenByTheNextFetch :
    (LegalPc ((atPc 0x200 0xF033).setI 0x202).pc ∧ decode (wordAtPc ((atPc 0x200 0xF033).setI 0x202)) = .ldBVx 0 ∧
      ((atPc 0x200 0xF033).setI 0x202).i.toNat = ((atPc 0x200 0xF033).setI 0x202).pc.toNat + 2) ∧
    (LegalPc ((atPc 0xFFA 0xF033).setI 0xFFC).pc ∧ ((atPc 0xFFA 0xF033).setI 0xFFC).pc.toNat ≤ 0xFFA ∧
      decode (wordAtPc ((atPc 0xFFA 0xF033).setI 0xFFC)) = .ldBVx 0 ∧
      ((atPc 0xFFA 0xF033).setI 0xFFC).i.toNat = ((atPc 0xFFA 0xF033).setI 0xFFC).pc.toNat + 2) := by decide

/-- StepIgnoresTimersKeysAndHalt: two states that agree and are not equal, one pair that steps and one that faults. -/
theorem witness_StepIgnoresTimersKeysAndHalt :
    AgreeForStep (word 0x6001) { (word 0x6001) with dt := 9, halt := true } ∧
    (word 0x6001) ≠ { (word 0x6001) with dt := 9, halt := true } ∧
    (nextState (step (word 0x6001))).isSome = true ∧ (faultOf (step State.reset)).isSome = true := by
  refine ⟨⟨rfl, rfl, rfl, rfl, rfl, rfl, rfl⟩, by decide, by decide, by decide⟩

/-- HostScheduleDoesNotReachTheProgram: a schedule of turns and quiet events that runs. -/
theorem witness_HostScheduleDoesNotReachTheProgram :
    ([.host .tick, .core, .host .readDisplay] : List Move).all (fun mv => mv.quietOrCore) = true ∧
    (System.trace [.host .tick, .core, .host .readDisplay] { core := word 0x6001, phase := .running }).isSome = true := by
  decide

/-- EveryRunEnds: a run of one completed step. -/
theorem witness_EveryRunEnds : Sys2Proof.core.run 1 (word 0x6001) = .next ((word 0x6001).writeV 0 1).advance := rfl

/-- EveryMoveKeepsTheInvariant and TimersStayZero: a move of each agent from a state that meets both. -/
theorem witness_moves :
    Inv System.initial.core ∧ System.initial.core.dt = 0 ∧ System.initial.core.st = 0 ∧
    (System.move (.host .tick) System.initial).isSome = true ∧
    (System.move (.host (.load [0x60])) System.initial).isSome = true ∧
    (System.move .core { core := word 0x2300, phase := .running }).isSome = true := by decide

/-- LoopTurnHaltsStepsOrFaults: a running loop with `HALT` set, one that steps, one that faults. -/
theorem witness_LoopTurnHaltsStepsOrFaults :
    ({ core := State.reset.setHalt true, phase := .running } : System).core.halt = true ∧
    ((word 0x6001).halt = false ∧ (nextState (step (word 0x6001))).isSome = true) ∧
    (State.reset.halt = false ∧ faultOf (step State.reset) = some (.unsupportedOpcode 0)) := by decide

/-- LoadCopiesTheImage: outside a run with the longest image that fits, the shortest that does not, and in a run. -/
theorem witness_LoadCopiesTheImage :
    System.initial.phase.outsideRun = true ∧ (List.replicate 3584 (0x60 : Byte)).length ≤ 0xE00 ∧
    0xE00 < (List.replicate 3585 (0x60 : Byte)).length ∧ Phase.outsideRun .running = false := by
  simp only [List.length_replicate]; decide

/-- SkipOnlyAfterAFault: a faulted system and one that is not. -/
theorem witness_SkipOnlyAfterAFault :
    ({ core := State.reset, phase := .faulted .stackOverflow } : System).phase.isFaulted = true ∧
    System.initial.phase.isFaulted = false := by decide

/-- ResetGivesTheListedValues: outside a run, after a fault; an address in and one above the font. -/
theorem witness_ResetGivesTheListedValues :
    Phase.outsideRun (.faulted .stackOverflow) = true ∧ 0x4F < 0x50 ∧ 0x50 ≤ 0xFFF := by decide

/-- WordWriteIsReadBack: the last address that fits a word, and the first that does not. -/
theorem witness_WordWriteIsReadBack : 0xFFE + 1 ≤ 0xFFF ∧ 0xFFF < 0xFFF + 1 := by decide

end Sys2Proof.Tests
end

/-! ### Decode by division and remainder (30_encoding.md R76) -/

namespace Sys2Proof

theorem fieldOp_eq_ofNat_iff (w : Word) {n : Nat} (hn : n < 16) :
    fieldOp w = BitVec.ofNat 4 n ↔ w.toNat / 4096 = n := by
  rw [← BitVec.toNat_inj, fieldOp_toNat, BitVec.toNat_ofNat, Nat.mod_eq_of_lt hn]

theorem fieldNN_eq_ofNat_iff (w : Word) {n : Nat} (hn : n < 256) :
    fieldNN w = BitVec.ofNat 8 n ↔ w.toNat % 256 = n := by
  rw [← BitVec.toNat_inj, fieldNN_toNat, BitVec.toNat_ofNat, Nat.mod_eq_of_lt hn]

theorem fieldX_eq_ofNat (w : Word) : fieldX w = BitVec.ofNat 4 (w.toNat / 256 % 16) := by
  rw [← fieldX_toNat, BitVec.ofNat_toNat, BitVec.setWidth_eq]

theorem fieldY_eq_ofNat (w : Word) : fieldY w = BitVec.ofNat 4 (w.toNat / 16 % 16) := by
  rw [← fieldY_toNat, BitVec.ofNat_toNat, BitVec.setWidth_eq]

theorem fieldN_eq_ofNat (w : Word) : fieldN w = BitVec.ofNat 4 (w.toNat % 16) := by
  rw [← fieldN_toNat, BitVec.ofNat_toNat, BitVec.setWidth_eq]

theorem fieldNN_eq_ofNat (w : Word) : fieldNN w = BitVec.ofNat 8 (w.toNat % 256) := by
  rw [← fieldNN_toNat, BitVec.ofNat_toNat, BitVec.setWidth_eq]

theorem fieldNNN_eq_ofNat (w : Word) : fieldNNN w = BitVec.ofNat 12 (w.toNat % 4096) := by
  rw [← fieldNNN_toNat, BitVec.ofNat_toNat, BitVec.setWidth_eq]

/-- What `decode` can answer, and when, with every test on the word's number. -/
theorem decode_cases_toNat (w : Word) :
    (w.toNat / 4096 = 2 ∧ decode w = .callNnn (fieldNNN w)) ∨
    (w.toNat / 4096 = 6 ∧ decode w = .ldVxNn (fieldX w) (fieldNN w)) ∨
    (w.toNat / 4096 = 10 ∧ decode w = .ldINnn (fieldNNN w)) ∨
    (w.toNat / 4096 = 13 ∧ decode w = .drwVxVyN (fieldX w) (fieldY w) (fieldN w)) ∨
    ((w.toNat / 4096 = 15 ∧ w.toNat % 256 = 0x33) ∧ decode w = .ldBVx (fieldX w)) ∨
    ((w.toNat / 4096 ≠ 2 ∧ w.toNat / 4096 ≠ 6 ∧ w.toNat / 4096 ≠ 10 ∧ w.toNat / 4096 ≠ 13 ∧
      ¬ (w.toNat / 4096 = 15 ∧ w.toNat % 256 = 0x33)) ∧ decode w = .unsupported w) := by
  simpa only [ne_eq, fieldOp_eq_ofNat_iff w (show 2 < 16 by decide), fieldOp_eq_ofNat_iff w (show 6 < 16 by decide),
    fieldOp_eq_ofNat_iff w (show 10 < 16 by decide), fieldOp_eq_ofNat_iff w (show 13 < 16 by decide),
    fieldOp_eq_ofNat_iff w (show 15 < 16 by decide), fieldNN_eq_ofNat_iff w (show 0x33 < 256 by decide)]
    using decode_cases w

/-- Settles O2: in each of the six cases of `decode` the clause of that case is the field arithmetic, and every other
clause has a premise the case excludes. -/
theorem decodeFollowsTheOpcodeMap : Obligations.DecodeFollowsTheOpcodeMap := by
  unfold Obligations.DecodeFollowsTheOpcodeMap
  intro w
  simp only [← fieldX_eq_ofNat, ← fieldY_eq_ofNat, ← fieldN_eq_ofNat, ← fieldNN_eq_ofNat, ← fieldNNN_eq_ofNat]
  obtain ⟨h, hd⟩ | ⟨h, hd⟩ | ⟨h, hd⟩ | ⟨h, hd⟩ | ⟨⟨h, hlow⟩, hd⟩ | ⟨⟨h2, h6, hA, hD, hF⟩, hd⟩ :=
    decode_cases_toNat w
  · simp [h, hd]
  · simp [h, hd]
  · simp [h, hd]
  · simp [h, hd]
  · simp [h, hlow, hd]
  · exact ⟨fun h => absurd h h2, fun h => absurd h h6, fun h => absurd h hA, fun h => absurd h hD,
      fun h hlow => absurd ⟨h, hlow⟩ hF, fun _ => hd⟩

end Sys2Proof

/-! ### `PC` after a completed step (40_execution_cycle.md R95, R96) -/

namespace Sys2Proof.Machine

/-- The `PC` of a completed instruction: CALL sets its operand, every other instruction ends in the advance. -/
theorem exec_next_pc {i : Instr} {s t : State} (h : exec i s = .next t) :
    (∃ nnn, i = .callNnn nnn ∧ t.pc = zext16 nnn) ∨ ((¬ ∃ nnn, i = .callNnn nnn) ∧ t.pc = s.pc + 2) := by
  obtain ⟨nnn, _, rfl, rfl⟩ | ⟨x, nn, rfl, rfl⟩ | ⟨nnn, rfl, rfl⟩ | ⟨x, y, n, rfl, _, rfl⟩ | ⟨x, rfl, _, rfl⟩ :=
    exec_next h
  · exact .inl ⟨nnn, rfl, rfl⟩
  · exact .inr ⟨by simp, by simp⟩
  · exact .inr ⟨by simp, by simp⟩
  · exact .inr ⟨by simp, by simp [State.setFlag_eq]⟩
  · exact .inr ⟨by simp, by simp⟩

/-- Settles O29: the completed instruction is either CALL, whose operand keeps its number when zero-extended, or one
that advances, and it ran at a legal `PC`, where the advance does not wrap. -/
theorem pcAfterACompletedStep : Obligations.PcAfterACompletedStep := by
  unfold Obligations.PcAfterACompletedStep
  intro s t h
  obtain ⟨hlegal, hexec⟩ := step_next h
  obtain ⟨nnn, hcall, hpc⟩ | ⟨hcall, hpc⟩ := exec_next_pc hexec
  · refine ⟨fun nnn' hcall' => ?_, fun hno => absurd ⟨nnn, hcall⟩ hno⟩
    obtain rfl : nnn = nnn' := Instr.callNnn.inj (hcall.symm.trans hcall')
    rw [hpc, zext16_toNat]
  · exact ⟨fun nnn hcall' => absurd ⟨nnn, hcall'⟩ hcall, fun _ => ⟨hpc, hpc ▸ advance_toNat hlegal⟩⟩

end Sys2Proof.Machine

/-! ### The immediate loads (41_load_immediate.md R110, R111) -/

namespace Sys2Proof

theorem decode_ldVxNn {w : Word} (h : w.toNat / 4096 = 6) : decode w = .ldVxNn (fieldX w) (fieldNN w) := by
  have hop : fieldOp w = 6#4 := (fieldOp_eq_ofNat_iff w (show 6 < 16 by decide)).2 h
  simp [decode, hop]

theorem decode_ldINnn {w : Word} (h : w.toNat / 4096 = 10) : decode w = .ldINnn (fieldNNN w) := by
  have hop : fieldOp w = 10#4 := (fieldOp_eq_ofNat_iff w (show 10 < 16 by decide)).2 h
  simp [decode, hop]

end Sys2Proof

namespace Sys2Proof.Machine

theorem exec_ldVxNn (x : Reg) (nn : Byte) (s : State) : exec (.ldVxNn x nn) s = .next (s.writeV x nn).advance := rfl

theorem exec_ldINnn (nnn : Addr12) (s : State) : exec (.ldINnn nnn) s = .next (s.setI (zext16 nnn)).advance := rfl

theorem sameRegsBut_writeV_advance (s : State) (x : Reg) (b : Byte) : SameRegsBut [x] s (s.writeV x b).advance := by
  intro k hk
  have hne : k ≠ x := by simpa using hk
  rw [State.readV_advance, State.readV_writeV_ne s b hne]

theorem sameRegsBut_setI_advance (s : State) (a : Word) (ks : List Reg) : SameRegsBut ks s (s.setI a).advance :=
  fun k _ => by rw [State.readV_advance, State.readV_setI]

/-- Settles O9: the range fixes the primary opcode, and the completed state is one register write and the advance. -/
theorem loadByteImmediate : Obligations.LoadByteImmediate := by
  unfold Obligations.LoadByteImmediate
  refine ⟨fun w hlo hhi => ?_, fun x nn s => ?_⟩
  · have hop : w.toNat / 4096 = 6 := by omega
    exact ⟨fieldX w, fieldNN w, decode_ldVxNn hop, fieldX_toNat w, fieldNN_toNat w⟩
  · refine ⟨_, exec_ldVxNn x nn s, ?_, ?_, sameRegsBut_writeV_advance s x nn, ?_⟩
    · rw [State.readV_advance, State.readV_writeV_same]
    · rw [State.advance_pc, State.writeV_pc]
    · simp [SameStack, SameInputs, SameMemory]

/-- Settles O10: the range fixes the primary opcode, and the completed state is a write of the zero-extended operand to
`I` and the advance. -/
theorem loadIndexImmediate : Obligations.LoadIndexImmediate := by
  unfold Obligations.LoadIndexImmediate
  refine ⟨fun w hlo hhi => ?_, fun nnn s => ?_⟩
  · have hop : w.toNat / 4096 = 10 := by omega
    exact ⟨fieldNNN w, decode_ldINnn hop, fieldNNN_toNat w⟩
  · refine ⟨_, exec_ldINnn nnn s, ?_, ?_, sameRegsBut_setI_advance s (zext16 nnn) [], ?_⟩
    · rw [State.advance_i, State.setI_i, zext16_toNat]
    · rw [State.advance_pc, State.setI_pc]
    · simp [SameStack, SameInputs, SameMemory]

end Sys2Proof.Machine

/-! ### The flag and the wrapping of Draw (42_draw.md R123, R124) -/

namespace Sys2Proof.Machine

/-- A pixel that was on goes off exactly when the sprite covers it: XOR inverts the covered pixels only (R123). -/
theorem pixel_goes_off_iff (f : Frame) (x y : Byte) {bytes : List Byte} (hlen : bytes.length ≤ 32) (row : Fin 32)
    (col : Fin 64) :
    (f.pixel row col = true ∧ (draw f x y bytes).1.pixel row col = false) ↔
      (f.pixel row col = true ∧ SpriteCovers x y bytes row col) := by
  obtain ⟨hcovered, hother⟩ := pixel_draw f x y bytes hlen row col
  refine and_congr_right fun hon => ?_
  by_cases hc : SpriteCovers x y bytes row col
  · simp [hc, hcovered hc, hon]
  · simp [hc, hother hc, hon]

/-- Settles O14: the flag says that some covered pixel was on, and those are the pixels that go off. -/
theorem drawFlagMeansAPixelWentOff : Obligations.DrawFlagMeansAPixelWentOff := by
  unfold Obligations.DrawFlagMeansAPixelWentOff
  intro f x y bytes hlen
  have hoff := pixel_goes_off_iff f x y hlen
  exact ⟨by simp only [hoff, flag_draw f x y bytes hlen], hoff⟩

/-- Bit position `c` counts from the left (R122), so it is the power of two `7 - c`. -/
theorem getLsbD_twoPow_bitPosition_iff {c d : Nat} (hc : c < 8) (hd : d < 8) :
    (BitVec.twoPow 8 (7 - c)).getLsbD (7 - d) = true ↔ d = c := by
  rw [BitVec.getLsbD_twoPow, Bool.and_eq_true, decide_eq_true_eq, decide_eq_true_eq]
  omega

/-- The sprite whose only bit equal to 1 is position `c` of row `r`. -/
def oneBitSprite (r c : Nat) : List Byte := List.replicate r 0 ++ [BitVec.twoPow 8 (7 - c)]

theorem length_oneBitSprite (r c : Nat) : (oneBitSprite r c).length = r + 1 := by simp [oneBitSprite]

theorem getElem_oneBitSprite_lt {r c q : Nat} (h : q < r) (hq : q < (oneBitSprite r c).length) :
    (oneBitSprite r c)[q] = 0 := by
  simp [oneBitSprite, h]

theorem getElem_oneBitSprite_self {r c : Nat} (hr : r < (oneBitSprite r c).length) :
    (oneBitSprite r c)[r] = BitVec.twoPow 8 (7 - c) := by
  simp [oneBitSprite]

theorem spriteCovers_oneBitSprite (x y : Byte) (r : Nat) {c : Nat} (hc : c < 8) (row : Fin 32) (col : Fin 64) :
    SpriteCovers x y (oneBitSprite r c) row col ↔
      row.val = (y.toNat + r) % 32 ∧ col.val = (x.toNat + c) % 64 := by
  have hr : r < (oneBitSprite r c).length := by rw [length_oneBitSprite]; omega
  constructor
  · rintro ⟨q, d, hq, hd, hrow, hcol, hbit⟩
    have hqr : q = r := by
      by_contra hne
      rw [length_oneBitSprite] at hq
      rw [getElem_oneBitSprite_lt (by omega)] at hbit
      simp at hbit
    subst hqr
    rw [getElem_oneBitSprite_self, getLsbD_twoPow_bitPosition_iff hc hd] at hbit
    exact ⟨hrow, hbit ▸ hcol⟩
  · rintro ⟨hrow, hcol⟩
    exact ⟨r, c, hr, hc, hrow, hcol, by rw [getElem_oneBitSprite_self, getLsbD_twoPow_bitPosition_iff hc hc]⟩

theorem pixel_draw_oneBitSprite (f : Frame) (x y : Byte) {r c : Nat} (hr : r < 32) (hc : c < 8) (row : Fin 32)
    (col : Fin 64) :
    (draw f x y (oneBitSprite r c)).1.pixel row col =
      (f.pixel row col ^^ (decide (row.val = (y.toNat + r) % 32) && decide (col.val = (x.toNat + c) % 64))) := by
  obtain ⟨hcovered, hother⟩ :=
    pixel_draw f x y (oneBitSprite r c) (by rw [length_oneBitSprite]; omega) row col
  rw [spriteCovers_oneBitSprite x y r hc] at hcovered hother
  rw [← Bool.decide_and]
  by_cases h : row.val = (y.toNat + r) % 32 ∧ col.val = (x.toNat + c) % 64
  · rw [hcovered h, decide_eq_true h, Bool.xor_true]
  · rw [hother h, decide_eq_false h, Bool.xor_false]

/-- The row of every sprite row is the same from the reduced start (R124). -/
theorem pixelRow_mod (y r : Nat) : pixelRow (y % 32) r = pixelRow y r :=
  Fin.ext (Nat.mod_add_mod y 32 r)

/-- The column of every bit position is the same from the reduced start (R124). -/
theorem pixelCol_mod (x c : Nat) : pixelCol (x % 64) c = pixelCol x c :=
  Fin.ext (Nat.mod_add_mod x 64 c)

theorem drawByte_mod (x y r : Nat) (b : Byte) : drawByte (x % 64) (y % 32) r b = drawByte x y r b := by
  have hbit : drawBit (x % 64) (y % 32) r b = drawBit x y r b := by
    funext acc c
    rw [drawBit, drawBit, pixelRow_mod, pixelCol_mod]
  funext acc
  rw [drawByte, drawByte, hbit]

theorem drawRows_mod (x y r : Nat) (bytes : List Byte) (acc : Frame × Bool) :
    drawRows (x % 64) (y % 32) r bytes acc = drawRows x y r bytes acc := by
  induction bytes generalizing r acc with
  | nil => rfl
  | cons b bytes ih => rw [drawRows, drawRows, drawByte_mod, ih]

/-- A coordinate reduced modulo the display's width or height fits a byte. -/
theorem toNat_ofNat_mod (x : Byte) {m : Nat} (hm : 0 < m) (h : m ≤ 256) :
    (BitVec.ofNat 8 (x.toNat % m)).toNat = x.toNat % m := by
  rw [BitVec.toNat_ofNat]
  exact Nat.mod_eq_of_lt (Nat.lt_of_lt_of_le (Nat.mod_lt _ hm) h)

/-- Settles O15: a one-bit sprite covers one pixel, whose coordinates wrap, and every coordinate Draw visits is the
same from the reduced start. -/
theorem drawWrapsOnBothAxes : Obligations.DrawWrapsOnBothAxes := by
  unfold Obligations.DrawWrapsOnBothAxes
  refine ⟨fun f x y r c hr hc row col => pixel_draw_oneBitSprite f x y hr hc row col, fun f x y bytes => ?_⟩
  rw [draw, draw, toNat_ofNat_mod x (by decide) (by decide), toNat_ofNat_mod y (by decide) (by decide), drawRows_mod]

end Sys2Proof.Machine

/-! ### Unsupported words and a run that faults (45_unsupported.md R165, R167, 60_exceptions.md R178) -/

namespace Sys2Proof.Machine

theorem decode_outsideMap {w : Word} (h : OutsideMap w) : decode w = .unsupported w := by
  obtain ⟨-, -, -, -, -, houtside⟩ := decodeFollowsTheOpcodeMap w
  exact houtside h

theorem exec_unsupported (w : Word) (s : State) : exec (.unsupported w) s = .fault (.unsupportedOpcode w) := rfl

theorem step_outsideMap {s : State} (hpc : LegalPc s.pc) (h : OutsideMap (wordAtPc s)) :
    step s = .fault (.unsupportedOpcode (wordAtPc s)) := by
  rw [step_legal hpc, decode_outsideMap h, exec_unsupported]

/-- The loop keeps the state beside the error (R98, R186). -/
theorem coreMove_fault {m : System} {e : Fault} (hrun : m.phase = .running) (hhalt : m.core.halt = false)
    (h : step m.core = .fault e) : m.coreMove = some { core := m.core, phase := .faulted e } := by
  simp [System.coreMove, hrun, hhalt, h]

theorem trace_cons_of_move {mv : Move} {m m' : System} (mvs : List Move) (h : m.move mv = some m') :
    System.trace (mv :: mvs) m = System.trace mvs m' := by
  rw [System.trace, h, Option.bind_some]

/-- A run started again after a fault meets the same state, and so the same fault (R187). -/
theorem trace_fault_startRun_fault {m : System} {e : Fault} (hrun : m.phase = .running) (hhalt : m.core.halt = false)
    (h : step m.core = .fault e) :
    System.trace [.core, .host .startRun, .core] m = some { core := m.core, phase := .faulted e } := by
  have hfirst : m.move .core = some { core := m.core, phase := .faulted e } := coreMove_fault hrun hhalt h
  have hstart : System.move (.host .startRun) { core := m.core, phase := .faulted e } =
      some { core := m.core, phase := .running } := rfl
  have hsecond : System.move .core { core := m.core, phase := .running } =
      some { core := m.core, phase := .faulted e } :=
    coreMove_fault (m := { core := m.core, phase := .running }) rfl hhalt h
  rw [trace_cons_of_move _ hfirst, trace_cons_of_move _ hstart, trace_cons_of_move _ hsecond, System.trace]

/-- Settles O23: the word decodes to the fallback, whose fault the loop reports beside the state it found, and the next
run starts from that same state. -/
theorem unsupportedWordChangesNothing : Obligations.UnsupportedWordChangesNothing := by
  unfold Obligations.UnsupportedWordChangesNothing
  refine ⟨fun w s hw => ⟨decode_outsideMap hw, w, exec_unsupported w s⟩, fun m hpc hw hrun hhalt => ?_⟩
  have hstep := step_outsideMap hpc hw
  exact ⟨wordAtPc m.core, hstep, coreMove_fault hrun hhalt hstep, trace_fault_startRun_fault hrun hhalt hstep⟩

end Sys2Proof.Machine

/-! ### Who raises what (60_exceptions.md R177, R179, R180) -/

namespace Sys2Proof.Machine

/-- What a step that raised an error did: fail the fetch bound, fail the `PC` invariant, or execute the word at a legal
`PC` (R184). -/
theorem step_fault {s : State} {e : Fault} (h : step s = .fault e) :
    (0xFFF ≤ s.pc.toNat ∧ e = .outOfBounds (max s.pc.toNat 0x1000)) ∨
    ((s.pc.toNat ≤ 0xFFE ∧ (s.pc.toNat % 2 = 1 ∨ s.pc.toNat < 0x200)) ∧ e = .invalidPC s.pc) ∨
    (LegalPc s.pc ∧ exec (decode (wordAtPc s)) s = .fault e) := by
  obtain ⟨hpc, q⟩ | ⟨hpc, q⟩ | ⟨hpc, q⟩ := step_cases s
  · exact .inl ⟨hpc, by cases q.symm.trans h; rfl⟩
  · exact .inr (.inl ⟨hpc, by cases q.symm.trans h; rfl⟩)
  · exact .inr (.inr ⟨hpc, q.symm.trans h⟩)

/-- The four kinds of error that a step can end in; the other two of R175 come from outside the core. -/
theorem step_fault_kind {s : State} {e : Fault} (h : step s = .fault e) :
    (∃ a, e = .outOfBounds a) ∨ e = .invalidPC s.pc ∨ e = .stackOverflow ∨ ∃ w, e = .unsupportedOpcode w := by
  obtain ⟨-, he⟩ | ⟨-, he⟩ | ⟨-, hexec⟩ := step_fault h
  · exact .inl ⟨_, he⟩
  · exact .inr (.inl he)
  · obtain ⟨_, -, -, he⟩ | ⟨_, _, _, -, -, -, he⟩ | ⟨_, -, -, he⟩ | ⟨w, -, he⟩ := exec_fault hexec
    · exact .inr (.inr (.inl he))
    · exact .inl ⟨_, he⟩
    · exact .inl ⟨_, he⟩
    · exact .inr (.inr (.inr ⟨w, he⟩))

theorem exec_callNnn_full (nnn : Addr12) {s : State} (h : s.sp.val = 16) :
    exec (.callNnn nnn) s = .fault .stackOverflow := by
  obtain ⟨hroom, -⟩ | ⟨-, q⟩ := execCallNnn_cases nnn s
  · omega
  · exact q

/-- Of the instructions only CALL pushes, and it raises `StackOverflow` exactly on a full stack (R179). -/
theorem exec_stackOverflow_iff (i : Instr) (s : State) :
    exec i s = .fault .stackOverflow ↔ (∃ nnn, i = .callNnn nnn) ∧ s.sp.val = 16 := by
  constructor
  · intro h
    obtain ⟨nnn, hcall, hfull, -⟩ | ⟨_, _, _, -, -, -, he⟩ | ⟨_, -, -, he⟩ | ⟨_, -, he⟩ := exec_fault h
    · exact ⟨⟨nnn, hcall⟩, hfull⟩
    · cases he
    · cases he
    · cases he
  · rintro ⟨⟨nnn, rfl⟩, hfull⟩
    exact exec_callNnn_full nnn hfull

/-- Settles O26: the fetch raises other errors, so the error of the step is the executed instruction's, and of those
only CALL on a full stack raises it. -/
theorem stackOverflowExactly : Obligations.StackOverflowExactly := by
  unfold Obligations.StackOverflowExactly
  refine ⟨exec_stackOverflow_iff, fun s h => ?_⟩
  obtain ⟨-, he⟩ | ⟨-, he⟩ | ⟨-, hexec⟩ := step_fault h
  · cases he
  · cases he
  · exact (exec_stackOverflow_iff _ s).1 hexec

/-- The Register File's `get` checks the index and nothing else (R177). -/
theorem regGet_error_iff {s : State} {index : Nat} {e : Fault} :
    s.regGet index = .error e ↔ 0xF < index ∧ e = .invalidRegister index := by
  by_cases h : 0xF < index
  · simp [State.regGet, h, eq_comm]
  · simp [State.regGet, h]

/-- The Register File's `set` checks the index and nothing else (R177). -/
theorem regSet_error_iff {s : State} {index : Nat} {b : Byte} {e : Fault} :
    s.regSet index b = .error e ↔ 0xF < index ∧ e = .invalidRegister index := by
  by_cases h : 0xF < index
  · simp [State.regSet, h, eq_comm]
  · simp [State.regSet, h]

/-- Settles O27: `get` and `set` check the index against `0xF`, and `InvalidRegister` is none of the kinds that a step
can end in. -/
theorem invalidRegisterOnlyFromOutside : Obligations.InvalidRegisterOnlyFromOutside := by
  unfold Obligations.InvalidRegisterOnlyFromOutside
  refine ⟨fun s index b => ⟨?_, ?_⟩, fun s k h => ?_⟩
  · simp [regGet_error_iff]
  · simp [regSet_error_iff]
  · obtain ⟨_, he⟩ | he | he | ⟨_, he⟩ := step_fault_kind h <;> cases he

/-- Pop fails on an empty stack and nowhere else (R141). -/
theorem pop_error_iff {s : State} {e : Fault} : pop s = .error e ↔ s.sp.val = 0 ∧ e = .stackUnderflow := by
  by_cases h : 0 < s.sp.val
  · simp [pop, h, h.ne']
  · simp [pop, Nat.eq_zero_of_not_pos h, eq_comm]

/-- Settles O28: Pop fails on an empty stack only, and `StackUnderflow` is none of the kinds that a step can end in. -/
theorem stackUnderflowOnlyFromPop : Obligations.StackUnderflowOnlyFromPop := by
  unfold Obligations.StackUnderflowOnlyFromPop
  refine ⟨fun s => by simp [pop_error_iff], fun s h => ?_⟩
  obtain ⟨_, he⟩ | he | he | ⟨_, he⟩ := step_fault_kind h <;> cases he

end Sys2Proof.Machine

/-! ### Decode and encode are inverse (30_encoding.md R71 to R76, R79, R82, R83) -/

namespace Sys2Proof

/-- A word is its two bytes, the high one first (R55). -/
theorem wordOfBytes_bytes (w : Word) : wordOfBytes (w.extractLsb' 8 8) (w.extractLsb' 0 8) = w :=
  BitVec.extractLsb'_append_extractLsb' (len := 8) (w := 8)

theorem decodeBytes_encodeBytes_append (i : Instr) (rest : List Byte) :
    decodeBytes (encodeBytes i ++ rest) = .ok (decode (encode i), rest) := by
  simp [encodeBytes, decodeBytes, wordOfBytes_bytes]

/-! #### The fields of a word put together -/

@[simp] theorem fieldOp_append_nnn (op : BitVec 4) (nnn : Addr12) : fieldOp (op ++ nnn) = op :=
  BitVec.extractLsb'_append_eq_left

@[simp] theorem fieldNNN_append_nnn (op : BitVec 4) (nnn : Addr12) : fieldNNN (op ++ nnn) = nnn :=
  BitVec.extractLsb'_append_eq_right

@[simp] theorem fieldOp_append_x_nn (op : BitVec 4) (x : Reg) (nn : Byte) : fieldOp (op ++ x ++ nn) = op :=
  (BitVec.extractLsb'_append_eq_of_le (by decide)).trans BitVec.extractLsb'_append_eq_left

@[simp] theorem fieldX_append_x_nn (op : BitVec 4) (x : Reg) (nn : Byte) : fieldX (op ++ x ++ nn) = x :=
  (BitVec.extractLsb'_append_eq_of_le (by decide)).trans BitVec.extractLsb'_append_eq_right

@[simp] theorem fieldNN_append_x_nn (op : BitVec 4) (x : Reg) (nn : Byte) : fieldNN (op ++ x ++ nn) = nn :=
  BitVec.extractLsb'_append_eq_right

@[simp] theorem fieldOp_append_x_y_n (op : BitVec 4) (x y : Reg) (n : Nibble) : fieldOp (op ++ x ++ y ++ n) = op :=
  (BitVec.extractLsb'_append_eq_of_le (by decide)).trans
    ((BitVec.extractLsb'_append_eq_of_le (by decide)).trans BitVec.extractLsb'_append_eq_left)

@[simp] theorem fieldX_append_x_y_n (op : BitVec 4) (x y : Reg) (n : Nibble) : fieldX (op ++ x ++ y ++ n) = x :=
  (BitVec.extractLsb'_append_eq_of_le (by decide)).trans
    ((BitVec.extractLsb'_append_eq_of_le (by decide)).trans BitVec.extractLsb'_append_eq_right)

@[simp] theorem fieldY_append_x_y_n (op : BitVec 4) (x y : Reg) (n : Nibble) : fieldY (op ++ x ++ y ++ n) = y :=
  (BitVec.extractLsb'_append_eq_of_le (by decide)).trans BitVec.extractLsb'_append_eq_right

@[simp] theorem fieldN_append_x_y_n (op : BitVec 4) (x y : Reg) (n : Nibble) : fieldN (op ++ x ++ y ++ n) = n :=
  BitVec.extractLsb'_append_eq_right

/-! #### A word put together from its fields -/

theorem fieldOp_append_fieldNNN (w : Word) : fieldOp w ++ fieldNNN w = w :=
  BitVec.extractLsb'_append_extractLsb' (len := 12) (w := 4)

theorem fieldOp_append_fieldX (w : Word) : fieldOp w ++ fieldX w = w.extractLsb' 8 8 :=
  BitVec.extractLsb'_append_extractLsb'_eq_extractLsb' rfl

theorem fieldY_append_fieldN (w : Word) : fieldY w ++ fieldN w = fieldNN w :=
  BitVec.extractLsb'_append_extractLsb'_eq_extractLsb' rfl

theorem fieldOp_append_fieldX_append_fieldNN (w : Word) : fieldOp w ++ fieldX w ++ fieldNN w = w := by
  rw [fieldOp_append_fieldX]
  exact wordOfBytes_bytes w

theorem fieldOp_append_fieldX_append_fieldY_append_fieldN (w : Word) :
    fieldOp w ++ fieldX w ++ fieldY w ++ fieldN w = w :=
  calc fieldOp w ++ fieldX w ++ fieldY w ++ fieldN w
      = w.extractLsb' 4 12 ++ fieldN w := by
        rw [fieldOp_append_fieldX]
        exact congrArg (· ++ fieldN w) (BitVec.extractLsb'_append_extractLsb'_eq_extractLsb' rfl)
    _ = w := BitVec.extractLsb'_append_extractLsb' (len := 4) (w := 12)

/-! #### Both directions -/

/-- A word of the fallback row decodes to the fallback (R83). -/
theorem decode_of_not_supportedWord {w : Word} (h : supportedWord w = false) : decode w = .unsupported w := by
  have hfields := mt (supportedWord_iff w).2 (Bool.eq_false_iff.1 h)
  simp only [not_or] at hfields
  obtain ⟨h2, h6, hA, hD, hF⟩ := hfields
  simp [decode, h2, h6, hA, hD, hF]

/-- Every constructor's word has the constructor's primary opcode and its operands in their fields, and the fallback
holds only a word that no row holds. -/
theorem decode_encode {i : Instr} (h : WellFormed i = true) : decode (encode i) = i := by
  cases i with
  | callNnn nnn => simp [encode, decode]
  | ldVxNn x nn => simp [encode, decode]
  | ldINnn nnn => simp [encode, decode]
  | drwVxVyN x y n => simp [encode, decode]
  | ldBVx x => simp [encode, decode]
  | unsupported w =>
    rw [encode]
    exact decode_of_not_supportedWord (by simpa [WellFormed] using h)

theorem wellFormed_decode (w : Word) : WellFormed (decode w) = true := by
  obtain ⟨-, hd⟩ | ⟨-, hd⟩ | ⟨-, hd⟩ | ⟨-, hd⟩ | ⟨-, hd⟩ | ⟨⟨h2, h6, hA, hD, hF⟩, hd⟩ := decode_cases w
  · rw [hd, WellFormed]
  · rw [hd, WellFormed]
  · rw [hd, WellFormed]
  · rw [hd, WellFormed]
  · rw [hd, WellFormed]
  · have hrow : supportedWord w = false := by
      rw [Bool.eq_false_iff, ne_eq, supportedWord_iff]
      simp [h2, h6, hA, hD, hF]
    rw [hd, WellFormed, hrow, Bool.not_false]

/-- Encoding puts the fields that `decode` took out of the word back in their places. -/
theorem encode_decode (w : Word) : encode (decode w) = w := by
  obtain ⟨h, hd⟩ | ⟨h, hd⟩ | ⟨h, hd⟩ | ⟨h, hd⟩ | ⟨⟨h, hlow⟩, hd⟩ | ⟨-, hd⟩ := decode_cases w
  · rw [hd, encode, ← h, fieldOp_append_fieldNNN]
  · rw [hd, encode, ← h, fieldOp_append_fieldX_append_fieldNN]
  · rw [hd, encode, ← h, fieldOp_append_fieldNNN]
  · rw [hd, encode, ← h, fieldOp_append_fieldX_append_fieldY_append_fieldN]
  · rw [hd, encode, ← h, ← hlow, fieldOp_append_fieldX_append_fieldNN]
  · rw [hd, encode]

/-- Settles O3: the decoder finds in each word's fields the operands that the encoder put there, and it reads the word
back from the two bytes in front. -/
theorem decodeOfEncodeIsIdentity : Obligations.DecodeOfEncodeIsIdentity := by
  unfold Obligations.DecodeOfEncodeIsIdentity
  intro i h
  exact ⟨decode_encode h, fun rest => by rw [decodeBytes_encodeBytes_append, decode_encode h]⟩

/-- Settles O4: in each case of `decode` the fields it took out of the word make the word up again. -/
theorem encodeOfDecodeIsIdentity : Obligations.EncodeOfDecodeIsIdentity := by
  unfold Obligations.EncodeOfDecodeIsIdentity
  exact fun w => ⟨wellFormed_decode w, encode_decode w⟩

/-- Settles O1: five fixed words, each decoded by evaluation. -/
theorem decodesTheWorkedEncodings : Obligations.DecodesTheWorkedEncodings := by
  unfold Obligations.DecodesTheWorkedEncodings
  decide

end Sys2Proof

/-! ### The step (40_execution_cycle.md R90 to R92, 60_exceptions.md R184) -/

namespace Sys2Proof.Machine

/-- Settles O5: the two bytes at a legal `PC` are the word that the step decodes. -/
theorem stepRunsTheDecodedInstruction : Obligations.StepRunsTheDecodedInstruction := by
  unfold Obligations.StepRunsTheDecodedInstruction
  rintro s hi lo i hpc rfl rfl hdecode
  have hword : decode (wordAtPc s) = i := congrArg Prod.fst (Except.ok.inj hdecode)
  rw [step_legal hpc, hword]

/-- Settles O6: of the three things a step can do each premise leaves one. -/
theorem fetchFaultsInOrder : Obligations.FetchFaultsInOrder := by
  unfold Obligations.FetchFaultsInOrder
  intro s
  obtain ⟨hpc, hstep⟩ | ⟨⟨hle, hbad⟩, hstep⟩ | ⟨⟨hlow, hle, heven⟩, -⟩ := step_cases s
  · exact ⟨fun _ => hstep, fun hle => by omega⟩
  · exact ⟨fun hge => by omega, fun _ _ => hstep⟩
  · exact ⟨fun hge => by omega, fun _ hbad => by omega⟩

/-- Under `STRICT_PC` false the bound is the only check (R91). -/
theorem checkPC_false {pc : Word} (h : pc.toNat ≤ 0xFFE) : checkPC false pc = .ok () := by
  have hspan : checkSpan pc.toNat 2 = .ok () := checkSpan_ok (by omega)
  simp [checkPC, hspan]

/-- Settles O7: inside the bound the lenient fetch is a 2-byte read. -/
theorem lenientStepFetchesAnywhere : Obligations.LenientStepFetchesAnywhere := by
  unfold Obligations.LenientStepFetchesAnywhere
  intro s h
  simp only [stepWith, fetchWith, checkPC_false h, memRead16_ok h]

/-- Settles O8: the fetch ends in an error or leads to `exec`, which is total. -/
theorem stepGivesNextStateOrError : Obligations.StepGivesNextStateOrError := by
  unfold Obligations.StepGivesNextStateOrError
  intro s
  obtain ⟨-, hstep⟩ | ⟨-, hstep⟩ | ⟨-, hstep⟩ := step_cases s
  · exact .inr ⟨_, hstep⟩
  · exact .inr ⟨_, hstep⟩
  · rw [hstep]
    exact exec_total _ s

end Sys2Proof.Machine

/-! ### Draw as an instruction (42_draw.md R121, R126 to R130) -/

namespace Sys2Proof.Machine

/-- The buffer and the flag that DRW computes from a state. -/
def drawnAt (x y : Reg) (n : Nibble) (s : State) : Frame × Bool :=
  draw s.fb (s.readV x) (s.readV y) (spriteAtI s n)

/-- The sprite of DRW covers the pixel. -/
abbrev CoversAt (x y : Reg) (n : Nibble) (s : State) (row : Fin 32) (col : Fin 64) : Prop :=
  SpriteCovers (s.readV x) (s.readV y) (spriteAtI s n) row col

/-- The state that a completed DRW leaves. -/
def afterDraw (x y : Reg) (n : Nibble) (s : State) : State :=
  ((s.setFb (drawnAt x y n s).1).setFlag (drawnAt x y n s).2).advance

theorem exec_drw {x y : Reg} {n : Nibble} {s : State} (h : n.toNat = 0 ∨ s.i.toNat + (n.toNat - 1) ≤ 0xFFF) :
    exec (.drwVxVyN x y n) s = .next (afterDraw x y n s) := by
  obtain ⟨-, hexec⟩ | ⟨hfault, -⟩ := execDrwVxVyN_cases x y n s
  · exact hexec
  · omega

theorem exec_drw_fault {x y : Reg} {n : Nibble} {s : State} (hn : 0 < n.toNat)
    (h : 0xFFF < s.i.toNat + (n.toNat - 1)) :
    exec (.drwVxVyN x y n) s = .fault (.outOfBounds (max s.i.toNat 0x1000)) := by
  obtain ⟨hok, -⟩ | ⟨-, hexec⟩ := execDrwVxVyN_cases x y n s
  · omega
  · exact hexec

section
variable (x y : Reg) (n : Nibble) (s : State)

@[simp] theorem afterDraw_fb : (afterDraw x y n s).fb = (drawnAt x y n s).1 := rfl

theorem readV_flag_afterDraw : (afterDraw x y n s).readV 0xF = flagByte (drawnAt x y n s).2 := by
  rw [afterDraw, State.readV_advance, State.setFlag_eq]
  exact State.readV_writeV_same _ flagReg _

theorem sameRegsBut_afterDraw : SameRegsBut [0xF] s (afterDraw x y n s) := by
  intro k hk
  have hne : k ≠ flagReg := by simpa [flagReg] using hk
  rw [afterDraw, State.readV_advance, State.setFlag_eq, State.readV_writeV_ne _ _ hne, State.readV_setFb]

/-- What DRW leaves alone beside the registers: `I`, the stack, the inputs and memory (R128). -/
theorem afterDraw_frame :
    (afterDraw x y n s).i = s.i ∧ SameStack s (afterDraw x y n s) ∧ SameInputs s (afterDraw x y n s) ∧
      SameMemory s (afterDraw x y n s) :=
  ⟨rfl, ⟨rfl, rfl⟩, ⟨rfl, rfl, rfl, rfl⟩, fun _ => rfl⟩

theorem pixel_drawnAt (row : Fin 32) (col : Fin 64) :
    (CoversAt x y n s row col → (drawnAt x y n s).1.pixel row col = !s.fb.pixel row col) ∧
    (¬ CoversAt x y n s row col → (drawnAt x y n s).1.pixel row col = s.fb.pixel row col) :=
  pixel_draw _ _ _ _ (length_spriteAtI_le s n) row col

theorem flag_drawnAt :
    (drawnAt x y n s).2 = true ↔ ∃ row col, s.fb.pixel row col = true ∧ CoversAt x y n s row col :=
  flag_draw _ _ _ _ (length_spriteAtI_le s n)

end

theorem flagByte_eq_one_iff (c : Bool) : flagByte c = 0x01 ↔ c = true := by cases c <;> decide

/-- Settles O11: DRW completes with the drawn buffer, whose pixels and flag Draw's laws describe. -/
theorem drawCompletes : Obligations.DrawCompletes := by
  unfold Obligations.DrawCompletes
  intro x y n s h
  refine ⟨afterDraw x y n s, exec_drw h, fun row col => (pixel_drawnAt x y n s row col).1,
    fun row col => (pixel_drawnAt x y n s row col).2, fun hon => ?_, fun hnone => ?_, rfl,
    sameRegsBut_afterDraw x y n s, afterDraw_frame x y n s⟩
  · rw [readV_flag_afterDraw, (flag_drawnAt x y n s).2 hon]
    rfl
  · rw [readV_flag_afterDraw, Bool.eq_false_iff.2 (mt (flag_drawnAt x y n s).1 hnone)]
    rfl

/-- Settles O12: a draw of zero rows reads no byte, so it completes, and Draw of no bytes is the old buffer with the
flag clear. -/
theorem drawOfZeroRows : Obligations.DrawOfZeroRows := by
  unfold Obligations.DrawOfZeroRows
  exact fun x y s => ⟨afterDraw x y 0 s, exec_drw (.inl rfl), rfl, readV_flag_afterDraw x y 0 s, rfl,
    sameRegsBut_afterDraw x y 0 s, afterDraw_frame x y 0 s⟩

/-- Settles O13: the sprite's bytes are checked before the first write. -/
theorem drawOutOfBounds : Obligations.DrawOutOfBounds := by
  unfold Obligations.DrawOutOfBounds
  exact fun x y n s hn h => exec_drw_fault hn h

/-! #### The same draw twice -/

/-- The operands of DRW are read from registers other than `VF`, from `I` and from memory, which DRW leaves, so a second
draw covers the same pixels (R130). -/
theorem coversAt_afterDraw {x y : Reg} (hx : x ≠ 0xF) (hy : y ≠ 0xF) (n : Nibble) (s : State) (row : Fin 32)
    (col : Fin 64) : CoversAt x y n (afterDraw x y n s) row col ↔ CoversAt x y n s row col := by
  have hsprite : spriteAtI (afterDraw x y n s) n = spriteAtI s n := rfl
  rw [CoversAt, sameRegsBut_afterDraw x y n s x (by simpa using hx), sameRegsBut_afterDraw x y n s y (by simpa using hy),
    hsprite]

/-- Inverting the covered pixels twice gives the old buffer back. -/
theorem drawnAt_afterDraw_fst {x y : Reg} (hx : x ≠ 0xF) (hy : y ≠ 0xF) (n : Nibble) (s : State) :
    (drawnAt x y n (afterDraw x y n s)).1 = s.fb := by
  refine Frame.ext_pixel fun row col => ?_
  obtain ⟨hcovered, hother⟩ := pixel_drawnAt x y n s row col
  obtain ⟨hcovered', hother'⟩ := pixel_drawnAt x y n (afterDraw x y n s) row col
  rw [coversAt_afterDraw hx hy] at hcovered' hother'
  by_cases hc : CoversAt x y n s row col
  · rw [hcovered' hc, afterDraw_fb, hcovered hc, Bool.not_not]
  · rw [hother' hc, afterDraw_fb, hother hc]

/-- A covered pixel is on after the first draw exactly when it was off before, so the second flag says that the first
draw turned a pixel on. -/
theorem drawnAt_afterDraw_snd {x y : Reg} (hx : x ≠ 0xF) (hy : y ≠ 0xF) (n : Nibble) (s : State) :
    (drawnAt x y n (afterDraw x y n s)).2 = true ↔
      ∃ row col, s.fb.pixel row col = false ∧ CoversAt x y n s row col := by
  simp only [flag_drawnAt, coversAt_afterDraw hx hy, afterDraw_fb]
  refine exists_congr fun row => exists_congr fun col => and_congr_left fun hc => ?_
  rw [(pixel_drawnAt x y n s row col).1 hc, Bool.not_eq_true']

/-- Settles O16: the second draw completes from the state the first one leaves, and it inverts the same pixels. -/
theorem drawTwiceRestoresTheDisplay : Obligations.DrawTwiceRestoresTheDisplay := by
  unfold Obligations.DrawTwiceRestoresTheDisplay
  intro x y n s hx hy h
  refine ⟨afterDraw x y n s, afterDraw x y n (afterDraw x y n s), exec_drw h, exec_drw h,
    drawnAt_afterDraw_fst hx hy n s, ?_, ?_⟩
  · rw [readV_flag_afterDraw, flagByte_eq_one_iff, flag_drawnAt]
  · rw [readV_flag_afterDraw, flagByte_eq_one_iff, drawnAt_afterDraw_snd hx hy]

/-- Settles O44: Clear replaces the buffer, and nothing else, by one with every pixel off. -/
theorem clearTurnsEveryPixelOff : Obligations.ClearTurnsEveryPixelOff := by
  unfold Obligations.ClearTurnsEveryPixelOff
  exact fun s => ⟨Frame.pixel_clear, rfl⟩

end Sys2Proof.Machine

/-! ### Call (43_call.md R142, R146) -/

namespace Sys2Proof

theorem decode_callNnn {w : Word} (h : w.toNat / 4096 = 2) : decode w = .callNnn (fieldNNN w) := by
  have hop : fieldOp w = 2#4 := (fieldOp_eq_ofNat_iff w (show 2 < 16 by decide)).2 h
  simp [decode, hop]

end Sys2Proof

namespace Sys2Proof.Machine

/-- The state that a completed CALL leaves. -/
def afterCall (nnn : Addr12) (s : State) (h : s.sp.val < 16) : State :=
  { s with stack := s.stack.set s.sp.val s.pc h, sp := ⟨s.sp.val + 1, Nat.succ_lt_succ h⟩, pc := zext16 nnn }

theorem exec_call (nnn : Addr12) {s : State} (h : s.sp.val < 16) :
    exec (.callNnn nnn) s = .next (afterCall nnn s h) := by
  obtain ⟨_, hexec⟩ | ⟨hfull, -⟩ := execCallNnn_cases nnn s
  · exact hexec
  · omega

theorem afterCall_stack_new (nnn : Addr12) (s : State) (h : s.sp.val < 16) :
    (afterCall nnn s h).stack[s.sp.val] = s.pc := by
  simp [afterCall]

theorem afterCall_stack_other (nnn : Addr12) (s : State) (h : s.sp.val < 16) (k : Fin 16) (hk : k.val ≠ s.sp.val) :
    (afterCall nnn s h).stack[k] = s.stack[k] :=
  Vector.getElem_set_ne h k.isLt hk.symm

theorem afterCall_pc_toNat (nnn : Addr12) (s : State) (h : s.sp.val < 16) :
    (afterCall nnn s h).pc.toNat = nnn.toNat :=
  zext16_toNat nnn

/-- Settles O17: below 16 entries CALL completes with the push and the jump; on a full stack its error is the step's, and
the loop keeps the state beside it. -/
theorem callPushesItsOwnAddress : Obligations.CallPushesItsOwnAddress := by
  unfold Obligations.CallPushesItsOwnAddress
  refine ⟨fun w hlo hhi => ?_, fun nnn s h => ?_, fun nnn s hfull => exec_callNnn_full nnn hfull,
    fun nnn m hfull hpc hword hrun hhalt => ?_⟩
  · exact ⟨fieldNNN w, decode_callNnn (by omega), fieldNNN_toNat w⟩
  · exact ⟨afterCall nnn s h, exec_call nnn h, afterCall_stack_new nnn s h, afterCall_stack_other nnn s h, rfl,
      afterCall_pc_toNat nnn s h, fun _ _ => rfl, rfl, ⟨rfl, rfl, rfl, rfl⟩, fun _ => rfl, rfl⟩
  · have hstep : step m.core = .fault .stackOverflow := by
      rw [step_legal hpc, hword, exec_callNnn_full nnn hfull]
    exact coreMove_fault hrun hhalt hstep

/-- Settles O18: the completed CALL leaves its target in `PC`, and the next step checks it. -/
theorem callToAnIllegalTargetFaultsNext : Obligations.CallToAnIllegalTargetFaultsNext := by
  unfold Obligations.CallToAnIllegalTargetFaultsNext
  intro nnn s h
  obtain ⟨hbound, hinvariant⟩ := fetchFaultsInOrder (afterCall nnn s h)
  rw [afterCall_pc_toNat] at hbound hinvariant
  refine ⟨afterCall nnn s h, exec_call nnn h, rfl, afterCall_stack_new nnn s h, fun htop => ?_, hinvariant⟩
  rw [hbound htop.ge, htop]
  rfl

end Sys2Proof.Machine

/-! ### The decimal store (44_bcd_store.md R155 to R158) -/

namespace Sys2Proof.Machine

/-- The state that a completed LD B leaves. -/
def afterBcd (x : Reg) (s : State) : State :=
  (s.setMem (s.mem.storeBytes s.i.toNat (decimalDigits (s.readV x)))).advance

theorem exec_bcd (x : Reg) {s : State} (h : s.i.toNat ≤ 0xFFD) : exec (.ldBVx x) s = .next (afterBcd x s) := by
  obtain ⟨-, hexec⟩ | ⟨hfault, -⟩ := execLdBVx_cases x s
  · exact hexec
  · omega

theorem exec_bcd_fault (x : Reg) {s : State} (h : 0xFFE ≤ s.i.toNat) :
    exec (.ldBVx x) s = .fault (.outOfBounds (max s.i.toNat 0x1000)) := by
  obtain ⟨hok, -⟩ | ⟨-, hexec⟩ := execLdBVx_cases x s
  · omega
  · exact hexec

section
variable (x : Reg) (s : State)

theorem afterBcd_pc : (afterBcd x s).pc = s.pc + 2 := rfl

theorem byteAt_afterBcd (k : Nat) (hk : k < 3) :
    (afterBcd x s).mem.byteAt (s.i.toNat + k) = (decimalDigits (s.readV x))[k] :=
  Memory.byteAt_storeBytes_inside s.mem s.i.toNat (decimalDigits (s.readV x)) k hk

/-- The hundreds at `I`, the tens at `I + 1`, the ones at `I + 2`, as numbers. -/
theorem byteAt_afterBcd_toNat :
    ((afterBcd x s).mem.byteAt s.i.toNat).toNat = (s.readV x).toNat / 100 ∧
    ((afterBcd x s).mem.byteAt (s.i.toNat + 1)).toNat = (s.readV x).toNat / 10 % 10 ∧
    ((afterBcd x s).mem.byteAt (s.i.toNat + 2)).toNat = (s.readV x).toNat % 10 := by
  have hdigits := decimalDigits_toNat (s.readV x)
  simp only [decimalDigits, List.map_cons, List.map_nil, List.cons.injEq, and_true] at hdigits
  obtain ⟨hhundreds, htens, hones⟩ := hdigits
  refine ⟨?_, ?_, ?_⟩
  · exact (congrArg BitVec.toNat (byteAt_afterBcd x s 0 (by decide))).trans hhundreds
  · exact (congrArg BitVec.toNat (byteAt_afterBcd x s 1 (by decide))).trans htens
  · exact (congrArg BitVec.toNat (byteAt_afterBcd x s 2 (by decide))).trans hones

theorem sameMemoryOutside_afterBcd : SameMemoryOutside s.i.toNat 3 s (afterBcd x s) :=
  fun _ h => Memory.byteAt_storeBytes_outside _ _ h

end

/-- Settles O19: the three addresses are inside memory, so LD B completes with the three digits stored. -/
theorem bcdStoresThreeDigits : Obligations.BcdStoresThreeDigits := by
  unfold Obligations.BcdStoresThreeDigits
  intro x s h
  rw [effectiveAddress_eq] at h
  obtain ⟨hhundreds, htens, hones⟩ := byteAt_afterBcd_toNat x s
  exact ⟨afterBcd x s, exec_bcd x (by omega), hhundreds, htens, hones, sameMemoryOutside_afterBcd x s, rfl,
    fun _ _ => rfl, rfl, ⟨rfl, rfl⟩, ⟨rfl, rfl, rfl, rfl⟩, rfl⟩

/-- Settles O20: the stored digits are the register's hundreds, tens and ones, which make it up again. -/
theorem bcdDigitsAddUpToTheRegister : Obligations.BcdDigitsAddUpToTheRegister := by
  unfold Obligations.BcdDigitsAddUpToTheRegister
  intro x s h
  refine ⟨afterBcd x s, exec_bcd x h, ?_⟩
  obtain ⟨hhundreds, htens, hones⟩ := byteAt_afterBcd_toNat x s
  rintro _ _ _ rfl rfl rfl
  rw [hhundreds, htens, hones]
  have hbyte := (s.readV x).isLt
  omega

/-- Settles O21: the third address is above `0xFFF` exactly from `I = 0xFFE` on. -/
theorem bcdOutOfBounds : Obligations.BcdOutOfBounds := by
  unfold Obligations.BcdOutOfBounds
  intro x s h
  rw [effectiveAddress_eq] at h
  exact exec_bcd_fault x (by omega)

end Sys2Proof.Machine

/-! ### Unsupported words and `OutOfBounds`, exactly (45_unsupported.md R165, R166, 60_exceptions.md R176, R178) -/

namespace Sys2Proof.Machine

/-- Settles O22: the fallback's arm raises the error without looking at the state. -/
theorem unsupportedInstructionStops : Obligations.UnsupportedInstructionStops := by
  unfold Obligations.UnsupportedInstructionStops
  exact exec_unsupported

/-- The words that decode to the fallback are those outside the map, and it carries the whole word (R166). -/
theorem decode_eq_unsupported_iff {w u : Word} : decode w = .unsupported u ↔ OutsideMap w ∧ u = w := by
  constructor
  · intro h
    refine ⟨?_, decode_unsupported h⟩
    obtain ⟨-, hd⟩ | ⟨-, hd⟩ | ⟨-, hd⟩ | ⟨-, hd⟩ | ⟨-, hd⟩ | ⟨⟨h2, h6, hA, hD, hF⟩, -⟩ := decode_cases_toNat w
    · cases hd.symm.trans h
    · cases hd.symm.trans h
    · cases hd.symm.trans h
    · cases hd.symm.trans h
    · cases hd.symm.trans h
    · by_cases h15 : w.toNat / 4096 = 15
      · exact .inr ⟨h15, fun hlow => hF ⟨h15, hlow⟩⟩
      · exact .inl ⟨h2, h6, hA, hD, h15⟩
  · rintro ⟨h, rfl⟩
    exact decode_outsideMap h

/-- Settles O24: the fetch raises other errors, so the error is the executed instruction's, which is the fallback with the
word at `PC`. -/
theorem unsupportedOpcodeExactly : Obligations.UnsupportedOpcodeExactly := by
  unfold Obligations.UnsupportedOpcodeExactly
  intro s p
  constructor
  · intro h
    obtain ⟨-, he⟩ | ⟨-, he⟩ | ⟨hpc, hexec⟩ := step_fault h
    · cases he
    · cases he
    · obtain ⟨_, -, -, he⟩ | ⟨_, _, _, -, -, -, he⟩ | ⟨_, -, -, he⟩ | ⟨w, hw, he⟩ := exec_fault hexec
      · cases he
      · cases he
      · cases he
      · cases he
        exact ⟨hpc, decode_eq_unsupported_iff.1 hw⟩
  · rintro ⟨hpc, hout, rfl⟩
    exact step_outsideMap hpc hout

/-- Under either value of `STRICT_PC` the fetch raises `OutOfBounds` exactly when its second byte lies above `0xFFF`: the
bound is tested first, and past it the 2-byte read cannot fail (R184). -/
theorem fetchWith_outOfBounds_iff (strict : Bool) (s : State) :
    (∃ a, fetchWith strict s = .error (.outOfBounds a)) ↔ 0xFFF < s.pc.toNat + 1 := by
  by_cases h : s.pc.toNat ≤ 0xFFE
  · have hspan : checkSpan s.pc.toNat 2 = .ok () := checkSpan_ok (by omega)
    refine iff_of_false ?_ (by omega)
    rintro ⟨a, ha⟩
    by_cases hinv : (strict && !pcInvariant s.pc) = true
    · simp [fetchWith, checkPC, hspan, hinv] at ha
    · simp [fetchWith, checkPC, hspan, hinv, memRead16_ok h] at ha
  · have hspan := checkSpan_error (base := s.pc.toNat) (len := 2) (by decide) (by omega)
    exact iff_of_true ⟨max s.pc.toNat 0x1000, by simp only [fetchWith, checkPC, hspan]⟩ (by omega)

/-- Of the instructions only DRW and LD B access data in memory (R176). -/
theorem exec_outOfBounds_iff (i : Instr) (s : State) :
    (∃ a, exec i s = .fault (.outOfBounds a)) ↔
      (∃ x y n, i = .drwVxVyN x y n ∧ 0 < n.toNat ∧ 0xFFF < s.i.toNat + n.toNat - 1) ∨
      (∃ x, i = .ldBVx x ∧ 0xFFF < s.i.toNat + 2) := by
  constructor
  · rintro ⟨a, h⟩
    obtain ⟨_, -, -, he⟩ | ⟨x, y, n, hi, hn, hb, -⟩ | ⟨x, hi, hb, -⟩ | ⟨_, -, he⟩ := exec_fault h
    · cases he
    · exact .inl ⟨x, y, n, hi, hn, by omega⟩
    · exact .inr ⟨x, hi, by omega⟩
    · cases he
  · rintro (⟨x, y, n, rfl, hn, hb⟩ | ⟨x, rfl, hb⟩)
    · exact ⟨_, exec_drw_fault hn (by omega)⟩
    · exact ⟨_, exec_bcd_fault x (by omega)⟩

theorem loadImage_outOfBounds_iff (image : List Byte) (s : State) :
    (∃ a, loadImage image s = .error (.outOfBounds a)) ↔ 0xE00 < image.length := by
  obtain ⟨hfits, hload, -⟩ | ⟨hlong, hload, -⟩ := loadImage_cases image s
  · exact iff_of_false (by simp [hload]) (by omega)
  · exact iff_of_true ⟨_, hload⟩ hlong

/-- Settles O25: the fetch, the two instructions that access data, and the load. -/
theorem outOfBoundsExactly : Obligations.OutOfBoundsExactly := by
  unfold Obligations.OutOfBoundsExactly
  exact ⟨fetchWith_outOfBounds_iff, exec_outOfBounds_iff, loadImage_outOfBounds_iff⟩

end Sys2Proof.Machine

/-! ### What a completed step changes, piece of state by piece of state -/

namespace Sys2Proof.Machine

/-- The call stack and `PC`: CALL pushes and jumps, every other instruction leaves the stack and advances (R95, R148). -/
theorem exec_next_stack {i : Instr} {s t : State} (h : exec i s = .next t) :
    (∃ nnn, ∃ hsp : s.sp.val < 16, i = .callNnn nnn ∧ t = afterCall nnn s hsp) ∨
    ((¬ ∃ nnn, i = .callNnn nnn) ∧ SameStack s t ∧ t.pc = s.pc + 2) := by
  obtain ⟨nnn, hsp, hi, ht⟩ | ⟨_, _, rfl, rfl⟩ | ⟨_, rfl, rfl⟩ | ⟨_, _, _, rfl, -, rfl⟩ | ⟨_, rfl, -, rfl⟩ := exec_next h
  · exact .inl ⟨nnn, hsp, hi, ht⟩
  · exact .inr ⟨by simp, ⟨rfl, rfl⟩, rfl⟩
  · exact .inr ⟨by simp, ⟨rfl, rfl⟩, rfl⟩
  · exact .inr ⟨by simp, ⟨rfl, rfl⟩, rfl⟩
  · exact .inr ⟨by simp, ⟨rfl, rfl⟩, rfl⟩

/-- The general registers: LD Vx writes its own, DRW writes `VF` (R112). -/
theorem exec_next_readV {i : Instr} {s t : State} (h : exec i s = .next t) (k : Reg) :
    t.readV k = s.readV k ∨ i = .ldVxNn k (t.readV k) ∨
      (k = 0xF ∧ (∃ c, t.readV k = flagByte c) ∧ ∃ x y n, i = .drwVxVyN x y n) := by
  obtain ⟨_, _, rfl, rfl⟩ | ⟨x, nn, rfl, rfl⟩ | ⟨_, rfl, rfl⟩ | ⟨x, y, n, rfl, -, ht⟩ | ⟨_, rfl, -, rfl⟩ := exec_next h
  · exact .inl rfl
  · rw [State.readV_advance, State.readV_writeV]
    by_cases hk : k = x
    · exact .inr (.inl (by rw [if_pos hk, hk]))
    · exact .inl (if_neg hk)
  · exact .inl rfl
  · have ht : t = afterDraw x y n s := ht
    subst ht
    by_cases hk : k = 0xF
    · subst hk
      exact .inr (.inr ⟨rfl, ⟨_, readV_flag_afterDraw x y n s⟩, x, y, n, rfl⟩)
    · exact .inl (sameRegsBut_afterDraw x y n s k (by simpa using hk))
  · exact .inl rfl

/-- `I`: only LD I writes it (R112). -/
theorem exec_next_i {i : Instr} {s t : State} (h : exec i s = .next t) :
    t.i = s.i ∨ ∃ nnn, i = .ldINnn nnn ∧ t.i = zext16 nnn := by
  obtain ⟨_, _, rfl, rfl⟩ | ⟨_, _, rfl, rfl⟩ | ⟨nnn, rfl, rfl⟩ | ⟨_, _, _, rfl, -, rfl⟩ | ⟨_, rfl, -, rfl⟩ := exec_next h
  · exact .inl rfl
  · exact .inl rfl
  · exact .inr ⟨nnn, rfl, rfl⟩
  · exact .inl rfl
  · exact .inl rfl

/-- Memory: only LD B writes it, inside the space (R158). -/
theorem exec_next_mem {i : Instr} {s t : State} (h : exec i s = .next t) :
    t.mem = s.mem ∨ ∃ x, i = .ldBVx x ∧ s.i.toNat ≤ 0xFFD ∧ t = afterBcd x s := by
  obtain ⟨_, _, rfl, rfl⟩ | ⟨_, _, rfl, rfl⟩ | ⟨_, rfl, rfl⟩ | ⟨_, _, _, rfl, -, rfl⟩ | ⟨x, rfl, hb, ht⟩ := exec_next h
  · exact .inl rfl
  · exact .inl rfl
  · exact .inl rfl
  · exact .inl rfl
  · exact .inr ⟨x, rfl, hb, ht⟩

/-- `DT`, `ST`, `KEYS`, `HALT`: no instruction writes them (R37). -/
theorem exec_next_inputs {i : Instr} {s t : State} (h : exec i s = .next t) : SameInputs s t := by
  obtain ⟨_, _, -, rfl⟩ | ⟨_, _, -, rfl⟩ | ⟨_, -, rfl⟩ | ⟨_, _, _, -, -, rfl⟩ | ⟨_, -, -, rfl⟩ := exec_next h
  · exact ⟨rfl, rfl, rfl, rfl⟩
  · exact ⟨rfl, rfl, rfl, rfl⟩
  · exact ⟨rfl, rfl, rfl, rfl⟩
  · exact ⟨rfl, rfl, rfl, rfl⟩
  · exact ⟨rfl, rfl, rfl, rfl⟩

theorem step_next_inputs {s t : State} (h : step s = .next t) : SameInputs s t :=
  exec_next_inputs (step_next h).2

/-- Settles O30: CALL writes the entry at `SP`, which is not a live one, and no other instruction touches the stack. -/
theorem stackOnlyGrows : Obligations.StackOnlyGrows := by
  unfold Obligations.StackOnlyGrows
  intro s t h
  obtain ⟨-, hexec⟩ := step_next h
  obtain ⟨nnn, hsp, hcall, rfl⟩ | ⟨hcall, ⟨hsp, hstack⟩, -⟩ := exec_next_stack hexec
  · exact ⟨fun _ => rfl, fun hno => absurd ⟨nnn, hcall⟩ hno, fun k hk => afterCall_stack_other nnn s hsp k hk.ne⟩
  · exact ⟨fun hyes => absurd hyes hcall, fun _ => hsp, fun k _ => by rw [hstack]⟩

/-- Settles O31: the executed instruction's effect on the registers and on `I`. -/
theorem whereRegisterValuesComeFrom : Obligations.WhereRegisterValuesComeFrom := by
  unfold Obligations.WhereRegisterValuesComeFrom
  intro s t h
  obtain ⟨-, hexec⟩ := step_next h
  refine ⟨fun k hchanged => ?_, fun hchanged => ?_⟩
  · obtain hsame | hload | ⟨hk, ⟨c, hc⟩, hdraw⟩ := exec_next_readV hexec k
    · exact absurd hsame hchanged
    · exact .inl hload
    · refine .inr ⟨hk, ?_, hdraw⟩
      rw [hc]
      cases c with
      | false => exact .inl rfl
      | true => exact .inr rfl
  · obtain hsame | ⟨nnn, hload, hi⟩ := exec_next_i hexec
    · exact absurd hsame hchanged
    · exact ⟨nnn, hload, by rw [hi, zext16_toNat]⟩

end Sys2Proof.Machine

/-! ### Stored digits as instruction bytes (44_bcd_store.md R158, 20_memory.md R64) -/

namespace Sys2Proof.Machine

theorem toNat_append_bytes (hi lo : Byte) : (hi ++ lo : Word).toNat = hi.toNat * 256 + lo.toNat := by
  rw [BitVec.toNat_append, ← Nat.shiftLeft_add_eq_or_of_lt lo.isLt, Nat.shiftLeft_eq]

/-- A digit is the high byte of no supported word (R158). -/
theorem outsideMap_of_digit {hi : Byte} (h : hi.toNat ≤ 9) (lo : Byte) : OutsideMap (hi ++ lo) := by
  have hword := toNat_append_bytes hi lo
  have hlo := lo.isLt
  exact .inl (by omega)

/-- A byte that LD B changes is one of the three it stores. -/
theorem byteAt_afterBcd_le_nine {x : Reg} {s : State} {a : Nat}
    (h : (afterBcd x s).mem.byteAt a ≠ s.mem.byteAt a) : ((afterBcd x s).mem.byteAt a).toNat ≤ 9 := by
  by_cases ha : s.i.toNat ≤ a ∧ a < s.i.toNat + 3
  · have hstored := byteAt_afterBcd x s (a - s.i.toNat) (by omega)
    rw [Nat.add_sub_cancel' ha.1] at hstored
    rw [hstored]
    exact decimalDigits_le_nine (List.getElem_mem _)
  · exact absurd (sameMemoryOutside_afterBcd x s a (by omega)) h

/-- Settles O32: memory changes by LD B only, which stores digits. -/
theorem changedBytesAreDigits : Obligations.ChangedBytesAreDigits := by
  unfold Obligations.ChangedBytesAreDigits
  intro s t h a hchanged
  obtain ⟨-, hexec⟩ := step_next h
  obtain hsame | ⟨x, hbcd, -, rfl⟩ := exec_next_mem hexec
  · exact absurd (by rw [hsame]) hchanged
  · have hdigit := byteAt_afterBcd_le_nine hchanged
    exact ⟨hdigit, ⟨x, hbcd⟩, fun lo => decode_outsideMap (outsideMap_of_digit hdigit lo)⟩

/-- The word at the `PC` of a completed LD B with `I` at the next instruction is its first two digits. -/
theorem wordAtPc_afterBcd {x : Reg} {s : State} (hpc : LegalPc s.pc) (hi : s.i.toNat = s.pc.toNat + 2) :
    wordAtPc (afterBcd x s) = (decimalDigits (s.readV x))[0] ++ (decimalDigits (s.readV x))[1] := by
  have hhundreds := byteAt_afterBcd x s 0 (by decide)
  have htens := byteAt_afterBcd x s 1 (by decide)
  rw [hi] at hhundreds htens
  rw [wordAtPc, afterBcd_pc, advance_toNat hpc, ← hhundreds, ← htens]

/-- Settles O33: the next step fetches the two digits, whose high one begins no supported word. -/
theorem storeIsSeenByTheNextFetch : Obligations.StoreIsSeenByTheNextFetch := by
  unfold Obligations.StoreIsSeenByTheNextFetch
  intro s x hpc htop hword hi
  have hnext := advance_toNat hpc
  have hpc' : LegalPc (afterBcd x s).pc := by
    obtain ⟨hlow, -, heven⟩ := hpc
    rw [afterBcd_pc, LegalPc, hnext]
    omega
  have hfetched := wordAtPc_afterBcd (x := x) hpc hi
  have hdigit : (decimalDigits (s.readV x))[0].toNat ≤ 9 := decimalDigits_le_nine (List.getElem_mem _)
  refine ⟨afterBcd x s, ?_, ?_⟩
  · rw [step_legal hpc, hword, exec_bcd x (by omega)]
  · rw [step_outsideMap hpc' (hfetched ▸ outsideMap_of_digit hdigit _), hfetched]
    refine congrArg (fun w => Host.Outcome.fault (Fault.unsupportedOpcode w)) (BitVec.eq_of_toNat_eq ?_)
    have hbyte := (s.readV x).isLt
    rw [toNat_append_bytes]
    simp only [decimalDigits, List.getElem_cons_zero, List.getElem_cons_succ, BitVec.toNat_ofNat]
    omega

end Sys2Proof.Machine

/-! ### The machine invariant (10_state.md R24, R26, 43_call.md R143) -/

namespace Sys2Proof.Machine

theorem wf_afterBcd {x : Reg} {s : State} (hwf : s.mem.wf) (hi : s.i.toNat ≤ 0xFFD) : (afterBcd x s).mem.wf :=
  Memory.wf_storeBytes hwf _ _ (.inr (by rw [length_decimalDigits, Config.addrMax]; omega))

/-- Settles O37: memory changes by a checked store, `I` by a 12-bit operand, and the one new live entry is the `PC` that
the CALL was fetched from. -/
theorem stepKeepsTheInvariant : Obligations.StepKeepsTheInvariant := by
  unfold Obligations.StepKeepsTheInvariant
  rintro s t ⟨hwf, hi, hlive⟩ h
  obtain ⟨hpc, hexec⟩ := step_next h
  refine ⟨?_, ?_, ?_⟩
  · obtain hsame | ⟨x, -, hb, rfl⟩ := exec_next_mem hexec
    · rwa [hsame]
    · exact wf_afterBcd hwf hb
  · obtain hsame | ⟨nnn, -, hnew⟩ := exec_next_i hexec
    · rwa [hsame]
    · rw [hnew, zext16_toNat]
      exact Nat.le_of_lt_succ nnn.isLt
  · obtain ⟨nnn, hsp, -, rfl⟩ | ⟨-, ⟨hsp, hstack⟩, -⟩ := exec_next_stack hexec
    · intro k hk
      by_cases hnew : k.val = s.sp.val
      · have hentry : (afterCall nnn s hsp).stack[k] = s.pc := by
          rw [Fin.getElem_fin]
          simp only [hnew]
          exact afterCall_stack_new nnn s hsp
        rwa [hentry]
      · rw [afterCall_stack_other nnn s hsp k hnew]
        exact hlive k (Nat.lt_of_le_of_ne (Nat.le_of_lt_succ hk) hnew)
    · rwa [hsp, hstack]

/-- Settles O46: nothing is listed, `I` is 0 and no entry is live. -/
theorem resetMeetsTheInvariant : Obligations.ResetMeetsTheInvariant := by
  unfold Obligations.ResetMeetsTheInvariant
  exact ⟨Memory.wf_nil, Nat.zero_le _, fun k hk => absurd hk (Nat.not_lt_zero k)⟩

end Sys2Proof.Machine

/-! ### A turn of the loop (40_execution_cycle.md R98 to R101) -/

namespace Sys2Proof.Machine

theorem coreMove_halt {m : System} (hrun : m.phase = .running) (hhalt : m.core.halt = true) :
    m.coreMove = some { core := m.core, phase := .halted } := by
  simp [System.coreMove, hrun, hhalt]

theorem coreMove_next {m : System} {t : State} (hrun : m.phase = .running) (hhalt : m.core.halt = false)
    (h : step m.core = .next t) : m.coreMove = some { core := t, phase := .running } := by
  simp [System.coreMove, hrun, hhalt, h]

/-- Settles O40: the turn's three outcomes. -/
theorem loopTurnHaltsStepsOrFaults : Obligations.LoopTurnHaltsStepsOrFaults := by
  unfold Obligations.LoopTurnHaltsStepsOrFaults
  exact fun m hrun => ⟨coreMove_halt hrun, fun t => coreMove_next hrun, fun e => coreMove_fault hrun⟩

/-- What a turn of the loop has done: halted, stepped or faulted, and only in a run. -/
theorem coreMove_cases {m m' : System} (h : m.coreMove = some m') : m.phase = .running ∧
    ((m.core.halt = true ∧ m' = { core := m.core, phase := .halted }) ∨
    (m.core.halt = false ∧ ∃ t, step m.core = .next t ∧ m' = { core := t, phase := .running }) ∨
    (m.core.halt = false ∧ ∃ e, step m.core = .fault e ∧ m' = { core := m.core, phase := .faulted e })) := by
  have hrun : m.phase = .running := by
    cases hp : m.phase with
    | running => rfl
    | idle => simp [System.coreMove, hp] at h
    | halted => simp [System.coreMove, hp] at h
    | faulted e => simp [System.coreMove, hp] at h
  refine ⟨hrun, ?_⟩
  cases hhalt : m.core.halt with
  | true => exact .inl ⟨rfl, Option.some.inj (h.symm.trans (coreMove_halt hrun hhalt))⟩
  | false =>
    obtain ⟨t, hstep⟩ | ⟨e, hstep⟩ := stepGivesNextStateOrError m.core
    · exact .inr (.inl ⟨rfl, t, hstep, Option.some.inj (h.symm.trans (coreMove_next hrun hhalt hstep))⟩)
    · exact .inr (.inr ⟨rfl, e, hstep, Option.some.inj (h.symm.trans (coreMove_fault hrun hhalt hstep))⟩)

/-! #### Every run ends -/

/-- An upper bound on the steps that can still complete: at most 2048 up to each of the CALLs that still fit the stack,
those CALLs, and the distance of `PC` from the end of memory (R101). -/
def stepsLeft (s : State) : Nat := (16 - s.sp.val) * 2049 + (0x1000 - s.pc.toNat) / 2

theorem stepsLeft_le (s : State) : stepsLeft s ≤ stepBound s := by
  have hsp := s.sp_le
  unfold stepsLeft stepBound
  omega

/-- A CALL uses up a stack entry, every other completed instruction moves `PC` on. -/
theorem stepsLeft_lt_of_step {s t : State} (h : step s = .next t) : stepsLeft t < stepsLeft s := by
  obtain ⟨hpc, hexec⟩ := step_next h
  have hsp := s.sp_le
  obtain ⟨nnn, hfree, -, rfl⟩ | ⟨-, ⟨hsame, -⟩, hadvance⟩ := exec_next_stack hexec
  · have hcall : (afterCall nnn s hfree).sp.val = s.sp.val + 1 := rfl
    unfold stepsLeft
    omega
  · rw [stepsLeft, stepsLeft, hsame, hadvance, advance_toNat hpc]
    obtain ⟨-, hle, -⟩ := hpc
    omega

/-- A run of `n + 1` steps that completes begins with a step that completes. -/
theorem core_run_succ_next {n : Nat} {s t : State} (h : Sys2Proof.core.run (n + 1) s = .next t) :
    ∃ u, step s = .next u ∧ Sys2Proof.core.run n u = .next t := by
  obtain ⟨u, hstep⟩ | ⟨e, hstep⟩ := stepGivesNextStateOrError s
  · exact ⟨u, hstep, (core_run_next n hstep).symm.trans h⟩
  · cases (core_run_fault n hstep).symm.trans h

theorem le_stepsLeft_of_run (n : Nat) {s t : State} (h : Sys2Proof.core.run n s = .next t) : n ≤ stepsLeft s := by
  induction n generalizing s with
  | zero => exact Nat.zero_le _
  | succ n ih =>
    obtain ⟨u, hstep, hrun⟩ := core_run_succ_next h
    exact Nat.lt_of_le_of_lt (ih hrun) (stepsLeft_lt_of_step hstep)

/-- With more fuel than steps left the loop ends before the fuel does. -/
theorem dispatchLoop_ends (fuel : Nat) {s : State} (h : stepsLeft s < fuel) :
    (∃ t, dispatchLoop fuel s = .halted t) ∨ ∃ t e, dispatchLoop fuel s = .faulted t e := by
  induction fuel generalizing s with
  | zero => exact absurd h (Nat.not_lt_zero _)
  | succ fuel ih =>
    cases hhalt : s.halt with
    | true => exact .inl ⟨s, by simp [dispatchLoop, hhalt]⟩
    | false =>
      obtain ⟨u, hstep⟩ | ⟨e, hstep⟩ := stepGivesNextStateOrError s
      · have hloop : dispatchLoop (fuel + 1) s = dispatchLoop fuel u := by simp [dispatchLoop, hhalt, hstep]
        rw [hloop]
        exact ih (Nat.lt_of_lt_of_le (stepsLeft_lt_of_step hstep) (Nat.le_of_lt_succ h))
      · exact .inr ⟨s, e, by simp [dispatchLoop, hhalt, hstep]⟩

/-- Settles O36: `stepsLeft` falls at every completed step and is at most the bound. -/
theorem everyRunEnds : Obligations.EveryRunEnds := by
  unfold Obligations.EveryRunEnds
  refine ⟨fun n s t h => ?_, fun s => ?_⟩
  · exact Nat.le_trans (le_stepsLeft_of_run n h) (stepsLeft_le s)
  · exact dispatchLoop_ends _ (Nat.lt_succ_of_le (stepsLeft_le s))

end Sys2Proof.Machine

/-! ### The host's events (10_state.md R38, 20_memory.md R68, 60_exceptions.md R188, R194, R202) -/

namespace Sys2Proof.Machine

theorem hostMove_load_ok {image : List Byte} {m : System} (hphase : m.phase.outsideRun = true)
    (h : image.length ≤ 0xE00) :
    m.hostMove (.load image) =
      some ({ m with core := m.core.setMem (m.core.mem.storeBytes 0x200 image) }, .done) := by
  obtain ⟨-, hload, -⟩ | ⟨hlong, -, -⟩ := loadImage_cases image m.core
  · simp [System.hostMove, hphase, hload]
  · omega

theorem hostMove_load_error {image : List Byte} {m : System} (hphase : m.phase.outsideRun = true)
    (h : 0xE00 < image.length) : m.hostMove (.load image) = some (m, .error (.outOfBounds 0x1000)) := by
  obtain ⟨hfits, -, -⟩ | ⟨-, hload, -⟩ := loadImage_cases image m.core
  · omega
  · simp [System.hostMove, hphase, hload]

theorem hostMove_load_in_run (image : List Byte) {m : System} (hphase : m.phase.outsideRun = false) :
    m.hostMove (.load image) = none := by
  simp [System.hostMove, hphase]

/-- Settles O42: an image that fits is stored byte by byte from `0x200`, one that does not is refused whole. -/
theorem loadCopiesTheImage : Obligations.LoadCopiesTheImage := by
  unfold Obligations.LoadCopiesTheImage
  refine fun image m => ⟨fun hphase h => ?_, hostMove_load_error, hostMove_load_in_run image⟩
  exact ⟨_, hostMove_load_ok hphase h, Memory.byteAt_storeBytes_inside _ _ image,
    fun _ ha => Memory.byteAt_storeBytes_outside _ image ha, rfl, rfl⟩

theorem isFaulted_iff (p : Phase) : p.isFaulted = true ↔ ∃ e, p = .faulted e := by
  cases p with
  | idle => simp [Phase.isFaulted]
  | running => simp [Phase.isFaulted]
  | halted => simp [Phase.isFaulted]
  | faulted e => simp [Phase.isFaulted]

theorem hostMove_skip_of_isFaulted {m : System} (h : m.phase.isFaulted = true) :
    m.hostMove .skip = some ({ m with core := m.core.skip }, .done) := by
  simp [System.hostMove, h]

theorem hostMove_skip_of_not_isFaulted {m : System} (h : m.phase.isFaulted = false) : m.hostMove .skip = none := by
  simp [System.hostMove, h]

/-- Settles O43: Skip is the advance, permitted in a faulted phase. -/
theorem skipOnlyAfterAFault : Obligations.SkipOnlyAfterAFault := by
  unfold Obligations.SkipOnlyAfterAFault
  refine fun m => ⟨fun e he => ?_, fun hno => ?_⟩
  · have hfaulted := (isFaulted_iff m.phase).2 ⟨e, he⟩
    exact ⟨_, hostMove_skip_of_isFaulted hfaulted, BitVec.toNat_add m.core.pc 2, rfl, rfl⟩
  · exact hostMove_skip_of_not_isFaulted (Bool.eq_false_iff.2 (mt (isFaulted_iff m.phase).1 hno))

/-- A timer counts down and stops at 0, as natural-number subtraction does (R194). -/
theorem tickTimer_toNat (t : Byte) : (tickTimer t).toNat = t.toNat - 1 := by
  by_cases h : t = 0
  · simp [tickTimer, h]
  · have hpos : t.toNat ≠ 0 := fun h0 => h (BitVec.eq_of_toNat_eq h0)
    rw [tickTimer, if_neg h, BitVec.toNat_sub_of_le (by bv_omega)]
    rfl

/-- Settles O41: a tick touches the two timers, each by `tickTimer`. -/
theorem tickCountsDownToZero : Obligations.TickCountsDownToZero := by
  unfold Obligations.TickCountsDownToZero
  exact fun m => ⟨{ m with core := m.core.tick }, .done, rfl, tickTimer_toNat _, tickTimer_toNat _,
    ⟨rfl, rfl, rfl, rfl, rfl, rfl, rfl⟩, rfl, rfl, rfl⟩

theorem hostMove_reset {m : System} (h : m.phase.outsideRun = true) :
    m.hostMove .reset = some (System.initial, .done) := by
  simp [System.hostMove, h]

theorem initialByte_font {a : Nat} (h : a < 0x50) : Memory.initialByte a = Config.font.getD a 0 :=
  if_pos ⟨Nat.zero_le a, h⟩

theorem initialByte_fill {a : Nat} (h : 0x50 ≤ a) : Memory.initialByte a = 0 :=
  if_neg fun ⟨_, hfont⟩ => Nat.not_lt.2 h hfont

theorem readV_reset (k : Reg) : State.reset.readV k = 0 :=
  Vector.getElem_replicate k.isLt

/-- Settles O45: Reset gives the initial system, whose memory lists nothing and so reads as its reset content. -/
theorem resetGivesTheListedValues : Obligations.ResetGivesTheListedValues := by
  unfold Obligations.ResetGivesTheListedValues
  exact fun m h => ⟨System.initial, hostMove_reset h, rfl, readV_reset, rfl, rfl, rfl, rfl, rfl,
    fun k => Vector.getElem_replicate k.isLt, fun a => initialByte_font, fun a => initialByte_fill, Frame.pixel_clear,
    fun k => Vector.getElem_replicate k.isLt, rfl⟩

/-- Settles O47: the glyphs lie inside memory, which reads as `FONT` there. -/
theorem fontLiesAtFiveTimesTheDigit : Obligations.FontLiesAtFiveTimesTheDigit := by
  unfold Obligations.FontLiesAtFiveTimesTheDigit
  refine ⟨rfl, fun d k hd hk => ?_⟩
  have haddr : fontAddress d + k = 5 * d + k := by
    rw [fontAddress, Config.fontBase, Config.fontGlyphBytes]
    omega
  have hread : State.reset.mem.byteAt (5 * d + k) = Config.font.getD (5 * d + k) 0 := initialByte_font (by omega)
  rw [haddr, memRead8_ok (by omega), hread]

end Sys2Proof.Machine

/-! ### The 2-byte access (20_memory.md R52, R53) -/

namespace Sys2Proof.Machine

/-- The two bytes of a word in memory order (R53, R55). -/
def wordBytes (v : Word) : List Byte := [v.extractLsb' 8 8, v.extractLsb' 0 8]

theorem memWrite16_ok {m : Memory} {a : Nat} {v : Word} (h : a + 1 ≤ 0xFFF) :
    memWrite16 m a v = .ok (m.storeBytes a (wordBytes v)) :=
  writeSpan_ok (bs := wordBytes v) (.inr h)

theorem memWrite16_error {m : Memory} {a : Nat} {v : Word} (h : 0xFFF < a + 1) :
    memWrite16 m a v = .error (.outOfBounds (max a 0x1000)) :=
  writeSpan_error (bs := wordBytes v) (Nat.zero_lt_two) h

theorem memRead16_error {m : Memory} {a : Nat} (h : 0xFFF < a + 1) :
    memRead16 m a = .error (.outOfBounds (max a 0x1000)) := by
  rw [memRead16, checkSpan_error (base := a) (len := 2) Nat.zero_lt_two h]

/-- Settles O48: the write puts the high byte at `a` and the low one at `a + 1`, and the read puts them together. -/
theorem wordWriteIsReadBack : Obligations.WordWriteIsReadBack := by
  unfold Obligations.WordWriteIsReadBack
  refine fun m a v => ⟨fun h => ?_, fun h => ⟨memWrite16_error h, memRead16_error h⟩⟩
  have hhigh := Memory.byteAt_storeBytes_inside m a (wordBytes v) 0 Nat.zero_lt_two
  have hlow := Memory.byteAt_storeBytes_inside m a (wordBytes v) 1 Nat.one_lt_two
  refine ⟨_, memWrite16_ok h, ?_, ?_, ?_, fun b hb hb' => ?_⟩
  · rw [memRead16_ok (by omega), hlow]
    exact congrArg Except.ok ((congrArg (· ++ _) hhigh).trans (wordOfBytes_bytes v))
  · rw [memRead8_ok (by omega)]
    exact congrArg Except.ok hhigh
  · rw [memRead8_ok h]
    exact congrArg Except.ok hlow
  · have hlen : (wordBytes v).length = 2 := rfl
    exact Memory.byteAt_storeBytes_outside m _ (by omega)

end Sys2Proof.Machine

/-! ### Every move of the core or the host (60_exceptions.md R191, R195, R202) -/

namespace Sys2Proof.Machine

/-- What a permitted host event has done to the core's state (R202). -/
theorem hostMove_core {ev : HostEvent} {m m' : System} {reply : HostReply} (h : m.hostMove ev = some (m', reply)) :
    m'.core = m.core ∨ m'.core = State.reset ∨
    (∃ image, image.length ≤ 0xE00 ∧ m'.core = m.core.setMem (m.core.mem.storeBytes 0x200 image)) ∨
    (∃ b, m'.core = m.core.setHalt b) ∨ m'.core = m.core.tick ∨ (∃ keys, m'.core = m.core.setKeys keys) ∨
    m'.core = m.core.skip := by
  cases ev with
  | reset =>
    cases hp : m.phase.outsideRun with
    | false => simp [System.hostMove, hp] at h
    | true =>
      cases (hostMove_reset hp).symm.trans h
      exact .inr (.inl rfl)
  | load image =>
    cases hp : m.phase.outsideRun with
    | false => cases (hostMove_load_in_run image hp).symm.trans h
    | true =>
      by_cases hlen : image.length ≤ 0xE00
      · cases (hostMove_load_ok hp hlen).symm.trans h
        exact .inr (.inr (.inl ⟨image, hlen, rfl⟩))
      · cases (hostMove_load_error hp (Nat.lt_of_not_le hlen)).symm.trans h
        exact .inl rfl
  | startRun =>
    cases hp : m.phase.outsideRun with
    | false => simp [System.hostMove, hp] at h
    | true =>
      simp only [System.hostMove, hp, if_true] at h
      cases h
      exact .inl rfl
  | setHalt b =>
    cases h
    exact .inr (.inr (.inr (.inl ⟨b, rfl⟩)))
  | tick =>
    cases h
    exact .inr (.inr (.inr (.inr (.inl rfl))))
  | updateKeys keys =>
    cases h
    exact .inr (.inr (.inr (.inr (.inr (.inl ⟨keys, rfl⟩)))))
  | readDisplay =>
    cases h
    exact .inl rfl
  | observe =>
    cases h
    exact .inl rfl
  | skip =>
    cases hp : m.phase.isFaulted with
    | false => cases (hostMove_skip_of_not_isFaulted hp).symm.trans h
    | true =>
      cases (hostMove_skip_of_isFaulted hp).symm.trans h
      exact .inr (.inr (.inr (.inr (.inr (.inr rfl)))))

/-- A property of the core's state that the reset state has and that a step and every other host event keep. -/
structure KeptByEveryMove (P : State → Prop) : Prop where
  step : ∀ {s t : State}, P s → step s = .next t → P t
  reset : P State.reset
  load : ∀ {s : State} {image : List Byte}, P s → image.length ≤ 0xE00 → P (s.setMem (s.mem.storeBytes 0x200 image))
  setHalt : ∀ {s : State} (b : Bool), P s → P (s.setHalt b)
  tick : ∀ {s : State}, P s → P s.tick
  setKeys : ∀ {s : State} (keys : Vector Bool 16), P s → P (s.setKeys keys)
  skip : ∀ {s : State}, P s → P s.skip

/-- Such a property is kept by every move of either agent. -/
theorem KeptByEveryMove.move {P : State → Prop} (hP : KeptByEveryMove P) {mv : Move} {m m' : System} (hm : P m.core)
    (h : m.move mv = some m') : P m'.core := by
  cases mv with
  | core =>
    obtain ⟨-, ⟨-, rfl⟩ | ⟨-, t, ht, rfl⟩ | ⟨-, e, -, rfl⟩⟩ := coreMove_cases h
    · exact hm
    · exact hP.step hm ht
    · exact hm
  | host ev =>
    obtain ⟨⟨m', reply⟩, hev, rfl⟩ := Option.map_eq_some_iff.1 h
    obtain e | e | ⟨image, hlen, e⟩ | ⟨b, e⟩ | e | ⟨keys, e⟩ | e := hostMove_core hev
    · exact e ▸ hm
    · exact e ▸ hP.reset
    · exact e ▸ hP.load hm hlen
    · exact e ▸ hP.setHalt b hm
    · exact e ▸ hP.tick hm
    · exact e ▸ hP.setKeys keys hm
    · exact e ▸ hP.skip hm

/-- Load writes inside memory, so it keeps the canonical form. -/
theorem wf_load {m : Memory} (h : m.wf) {image : List Byte} (hlen : image.length ≤ 0xE00) :
    (m.storeBytes 0x200 image).wf := by
  refine Memory.wf_storeBytes h _ _ (.inr ?_)
  rw [Config.addrMax]
  omega

theorem inv_keptByEveryMove : KeptByEveryMove Inv where
  step := stepKeepsTheInvariant _ _
  reset := resetMeetsTheInvariant
  load := fun ⟨hwf, hi, hlive⟩ hlen => ⟨wf_load hwf hlen, hi, hlive⟩
  setHalt _ h := h
  tick h := h
  setKeys _ h := h
  skip h := h

/-- Settles O38: the step lemma, the reset state, a load inside memory, and events that touch no piece of the
invariant. -/
theorem everyMoveKeepsTheInvariant : Obligations.EveryMoveKeepsTheInvariant := by
  unfold Obligations.EveryMoveKeepsTheInvariant
  exact fun _ _ _ => inv_keptByEveryMove.move

/-- Both timers have run out (R195). -/
def TimersZero (s : State) : Prop := s.dt = 0 ∧ s.st = 0

/-- A timer at 0 stays there (R194). -/
theorem timersZero_tick {s : State} (h : TimersZero s) : TimersZero s.tick := by
  obtain ⟨hdt, hst⟩ := h
  rw [TimersZero, State.tick_dt, State.tick_st, hdt, hst]
  exact ⟨rfl, rfl⟩

theorem timersZero_keptByEveryMove : KeptByEveryMove TimersZero where
  step := fun ⟨hdt, hst⟩ h =>
    have ⟨hdt', hst', _, _⟩ := step_next_inputs h
    ⟨hdt'.trans hdt, hst'.trans hst⟩
  reset := ⟨rfl, rfl⟩
  load h _ := h
  setHalt _ h := h
  tick := timersZero_tick
  setKeys _ h := h
  skip h := h

/-- Settles O39: only Tick and Reset write the timers, and Tick leaves one at 0. -/
theorem timersStayZero : Obligations.TimersStayZero := by
  unfold Obligations.TimersStayZero
  exact fun _ _ _ => timersZero_keptByEveryMove.move

end Sys2Proof.Machine

/-! ### The timers, the keys and `HALT` do not reach the program (40_execution_cycle.md R102, R104) -/

namespace Sys2Proof.Machine

/-- A state with the timers, the keys and `HALT` of another. -/
def State.withInputsOf (s u : State) : State := { s with dt := u.dt, st := u.st, keys := u.keys, halt := u.halt }

theorem agreeForStep_withInputsOf (s u : State) : AgreeForStep s (s.withInputsOf u) :=
  ⟨rfl, rfl, rfl, rfl, rfl, rfl, rfl⟩

/-- States that agree for a step differ in those four pieces only. -/
theorem AgreeForStep.eq_withInputsOf {s t : State} (h : AgreeForStep s t) : t = s.withInputsOf t := by
  obtain ⟨hv, hi, hpc, hsp, hstack, hmem, hfb⟩ := h
  cases t
  simp only [State.withInputsOf, State.mk.injEq, true_and, and_true]
  exact ⟨hv, hi, hpc, hsp, hstack, hmem, hfb⟩

theorem AgreeForStep.symm {s t : State} (h : AgreeForStep s t) : AgreeForStep t s := by
  obtain ⟨hv, hi, hpc, hsp, hstack, hmem, hfb⟩ := h
  exact ⟨hv.symm, hi.symm, hpc.symm, hsp.symm, hstack.symm, hmem.symm, hfb.symm⟩

theorem AgreeForStep.trans {s t u : State} (h : AgreeForStep s t) (h' : AgreeForStep t u) : AgreeForStep s u := by
  obtain ⟨hv, hi, hpc, hsp, hstack, hmem, hfb⟩ := h
  obtain ⟨hv', hi', hpc', hsp', hstack', hmem', hfb'⟩ := h'
  exact ⟨hv'.trans hv, hi'.trans hi, hpc'.trans hpc, hsp'.trans hsp, hstack'.trans hstack, hmem'.trans hmem,
    hfb'.trans hfb⟩

theorem exec_withInputsOf_next {i : Instr} {s t : State} (u : State) (h : exec i s = .next t) :
    exec i (s.withInputsOf u) = .next (t.withInputsOf u) := by
  obtain ⟨nnn, hsp, rfl, rfl⟩ | ⟨x, nn, rfl, rfl⟩ | ⟨nnn, rfl, rfl⟩ | ⟨x, y, n, rfl, hb, rfl⟩ | ⟨x, rfl, hb, rfl⟩ :=
    exec_next h
  · exact exec_call nnn (s := s.withInputsOf u) hsp
  · exact exec_ldVxNn x nn (s.withInputsOf u)
  · exact exec_ldINnn nnn (s.withInputsOf u)
  · exact exec_drw (s := s.withInputsOf u) hb
  · exact exec_bcd x (s := s.withInputsOf u) hb

theorem exec_withInputsOf_fault {i : Instr} {s : State} {e : Fault} (u : State) (h : exec i s = .fault e) :
    exec i (s.withInputsOf u) = .fault e := by
  obtain ⟨nnn, rfl, hfull, rfl⟩ | ⟨x, y, n, rfl, hn, hb, rfl⟩ | ⟨x, rfl, hb, rfl⟩ | ⟨w, rfl, rfl⟩ := exec_fault h
  · exact exec_callNnn_full nnn (s := s.withInputsOf u) hfull
  · exact exec_drw_fault (s := s.withInputsOf u) hn hb
  · exact exec_bcd_fault x (s := s.withInputsOf u) hb
  · exact exec_unsupported w (s.withInputsOf u)

theorem step_withInputsOf_next {s t : State} (u : State) (h : step s = .next t) :
    step (s.withInputsOf u) = .next (t.withInputsOf u) := by
  obtain ⟨hpc, hexec⟩ := step_next h
  exact (step_legal (s := s.withInputsOf u) hpc).trans (exec_withInputsOf_next u hexec)

theorem step_withInputsOf_fault {s : State} {e : Fault} (u : State) (h : step s = .fault e) :
    step (s.withInputsOf u) = .fault e := by
  obtain ⟨hbound, hinvariant⟩ := fetchFaultsInOrder (s.withInputsOf u)
  obtain ⟨hpc, rfl⟩ | ⟨⟨hle, hbad⟩, rfl⟩ | ⟨hpc, hexec⟩ := step_fault h
  · exact hbound hpc
  · exact hinvariant hle hbad
  · exact (step_legal (s := s.withInputsOf u) hpc).trans (exec_withInputsOf_fault u hexec)

/-- Settles O34: the second state is the first with other timers, keys and `HALT`, which the fetch and every instruction
carry along unread. -/
theorem stepIgnoresTimersKeysAndHalt : Obligations.StepIgnoresTimersKeysAndHalt := by
  unfold Obligations.StepIgnoresTimersKeysAndHalt
  intro s t hagree
  rw [hagree.eq_withInputsOf]
  refine ⟨fun s' h => ⟨step_next_inputs h, s'.withInputsOf t, step_withInputsOf_next t h, ?_⟩, fun e h => ?_⟩
  · exact agreeForStep_withInputsOf s' t
  · exact step_withInputsOf_fault t h

/-- Two systems that a run cannot tell apart: the phase, `HALT` and all that a step reads are the same. -/
def SameProgram (m n : System) : Prop :=
  n.phase = m.phase ∧ n.core.halt = m.core.halt ∧ AgreeForStep m.core n.core

theorem SameProgram.refl (m : System) : SameProgram m m := ⟨rfl, rfl, rfl, rfl, rfl, rfl, rfl, rfl, rfl⟩

theorem SameProgram.trans {m n p : System} (h : SameProgram m n) (h' : SameProgram n p) : SameProgram m p := by
  obtain ⟨hphase, hhalt, hagree⟩ := h
  obtain ⟨hphase', hhalt', hagree'⟩ := h'
  exact ⟨hphase'.trans hphase, hhalt'.trans hhalt, hagree.trans hagree'⟩

/-- A quiet event is invisible to the run. -/
theorem hostMove_quiet {ev : HostEvent} (hquiet : ev.quiet = true) {m m' : System} {reply : HostReply}
    (h : m.hostMove ev = some (m', reply)) : SameProgram m m' := by
  cases ev with
  | tick =>
    cases h
    exact SameProgram.refl m
  | updateKeys keys =>
    cases h
    exact SameProgram.refl m
  | readDisplay =>
    cases h
    exact SameProgram.refl m
  | observe =>
    cases h
    exact SameProgram.refl m
  | reset => cases hquiet
  | load image => cases hquiet
  | startRun => cases hquiet
  | setHalt b => cases hquiet
  | skip => cases hquiet

/-- A turn of the loop does the same in two systems that a run cannot tell apart. -/
theorem coreMove_sameProgram {m n n' : System} (h : SameProgram m n) (hmove : n.coreMove = some n') :
    ∃ m', m.coreMove = some m' ∧ SameProgram m' n' := by
  obtain ⟨hphase, hhalt, hagree⟩ := h
  obtain ⟨hnext, hfault⟩ := stepIgnoresTimersKeysAndHalt n.core m.core hagree.symm
  obtain ⟨hrun, ⟨hset, rfl⟩ | ⟨hclear, t, hstep, rfl⟩ | ⟨hclear, e, hstep, rfl⟩⟩ := coreMove_cases hmove
  · exact ⟨_, coreMove_halt (hphase.symm.trans hrun) (hhalt.symm.trans hset), rfl, hhalt, hagree⟩
  · obtain ⟨⟨-, -, -, hhaltn⟩, t', hstep', hagree'⟩ := hnext t hstep
    obtain ⟨-, -, -, hhaltm⟩ := step_next_inputs hstep'
    exact ⟨_, coreMove_next (hphase.symm.trans hrun) (hhalt.symm.trans hclear) hstep', rfl,
      hhaltn.trans (hhalt.trans hhaltm.symm), hagree'.symm⟩
  · exact ⟨_, coreMove_fault (hphase.symm.trans hrun) (hhalt.symm.trans hclear) (hfault e hstep), rfl, hhalt, hagree⟩

/-- A run with quiet events at its boundaries is followed by the run without them. -/
theorem trace_filter_isCore (mvs : List Move) (hquiet : ∀ mv ∈ mvs, mv.quietOrCore = true) {m n n' : System}
    (h : SameProgram m n) (htrace : System.trace mvs n = some n') :
    ∃ m', System.trace (mvs.filter Move.isCore) m = some m' ∧ SameProgram m' n' := by
  induction mvs generalizing m n with
  | nil =>
    cases htrace
    exact ⟨m, rfl, h⟩
  | cons mv mvs ih =>
    obtain ⟨n₁, hmove, hrest⟩ := Option.bind_eq_some_iff.1 htrace
    rw [List.forall_mem_cons] at hquiet
    obtain ⟨hmv, hmvs⟩ := hquiet
    cases mv with
    | core =>
      obtain ⟨m₁, hmove', hsame⟩ := coreMove_sameProgram h hmove
      obtain ⟨m', htrace', hsame'⟩ := ih hmvs hsame hrest
      exact ⟨m', (trace_cons_of_move (mv := .core) _ hmove').trans htrace', hsame'⟩
    | host ev =>
      obtain ⟨⟨_, reply⟩, hev, rfl⟩ := Option.map_eq_some_iff.1 hmove
      exact ih hmvs (h.trans (hostMove_quiet hmv hev)) hrest

/-- Settles O35: quiet events keep a system that the run cannot tell apart, and so do the loop's turns. -/
theorem hostScheduleDoesNotReachTheProgram : Obligations.HostScheduleDoesNotReachTheProgram := by
  unfold Obligations.HostScheduleDoesNotReachTheProgram
  intro mvs m m' hquiet htrace
  obtain ⟨m'', htrace', hphase, -, hagree⟩ := trace_filter_isCore mvs hquiet (SameProgram.refl m) htrace
  exact ⟨m'', htrace', hphase.symm, hagree⟩

end Sys2Proof.Machine
